-- ==== Sys2Proof/Word.lean ====
section
/-! DEFINITION. The word types of the Bit Buffer: the widths of 00_scope.md rule R10. -/

namespace Sys2Proof

/-- A storage byte, or one element of IN and OUT (R10, R15). -/
abbrev Byte := BitVec 8

/-- The command word CMD (R10, R49). -/
abbrev CmdWord := BitVec 32

end Sys2Proof
end

