-- ==== Sys2Proof/Syntax.lean ====
section
/-! DEFINITION. The syntax of the command set BITBUF revision 1: the four bit values (20_memory.md rule R32), the command
packet (10_state.md rule R17) and the 24 commands (30_encoding.md rule R54), one constructor for each row of
spec/opcode_table.json. A constructor carries the fields of the command word that its row uses; the operands OPA, OPB and
IN stand in the packet (R48). -/

namespace Sys2Proof

/-- The four-way symbolic bit value (R32). -/
inductive BitVal where
  | zero
  | one
  | low
  | high
deriving DecidableEq, Repr

/-- One command packet as the host presents it (R17, R48). -/
structure Packet where
  /-- The command word. -/
  cmd : CmdWord
  /-- Unsigned operand A: an index, a count, a limit or an external cursor (R52). -/
  opa : BitVec 32
  /-- Unsigned operand B: the value of SET_UINT and WRITE_FIELD (R53). -/
  opb : BitVec 64
  /-- The input byte stream IN, element 0 first (R30). -/
  inp : List Byte
deriving DecidableEq, Repr

/-- The commands of R54. `v` is the V field of R50, `nb` the NB field of R51, `target` the RUN_LENGTH target bit CMD[22]
(`true` is `one`). -/
inductive Instr where
  | getBit
  | getBitHl
  | setBit (v : BitVal)
  | findFirstBit (v : BitVal)
  | nthSetBit
  | setNextBit (v : BitVal)
  | getNextBitHl
  | setBits
  | setUint (nb : BitVec 7)
  | getUint (nb : BitVec 7)
  | getInt16Msb (nb : BitVec 7)
  | fill (v : BitVal)
  | sparePadding
  | getBytes
  | setBytes
  | readField (nb : BitVec 7)
  | writeField (nb : BitVec 7)
  | unhex
  | zero
  | pack
  | unpack
  | display
  | runLength (target : Bool)
  | shiftLeft
deriving DecidableEq, Repr

end Sys2Proof
end

