-- ==== Sys2Proof/Decode.lean ====
section
/-! DEFINITION. The command word of 30_encoding.md: its four fields (R49), the decoder over the opcode map (R54 to R56),
total on every 32-bit word and rejecting by name, and the encoder written from the same map. -/

namespace Sys2Proof

/-- The 2-bit code of a bit value (R32, R50). -/
def BitVal.code : BitVal → BitVec 2
  | .zero => 0#2
  | .one => 1#2
  | .low => 2#2
  | .high => 3#2

/-- The bit value of a 2-bit code (R32); every code has one. -/
def BitVal.ofCode (c : BitVec 2) : BitVal :=
  if c = 0#2 then .zero else if c = 1#2 then .one else if c = 2#2 then .low else .high

/-- `OPC = CMD[31:24]` (R49). -/
def fieldOpc (cmd : CmdWord) : BitVec 8 := cmd.extractLsb' 24 8

/-- `V = CMD[23:22]` (R49). -/
def fieldV (cmd : CmdWord) : BitVec 2 := cmd.extractLsb' 22 2

/-- `NB = CMD[21:15]` (R49). -/
def fieldNb (cmd : CmdWord) : BitVec 7 := cmd.extractLsb' 15 7

/-- `RSV = CMD[14:0]` (R49). -/
def fieldRsv (cmd : CmdWord) : BitVec 15 := cmd.extractLsb' 0 15

/-- Why a word is no command (R56). All four end alike, with ILLEGAL_COMMAND (R94); which name a word with several
faults gets is the model's own order (log entry 10). -/
inductive Illegal where
  /-- An opcode that R54 does not assign. -/
  | opcode
  /-- A nonzero reserved bit. -/
  | reserved
  /-- A nonzero V for a command that uses none, or `CMD[23] = 1` for RUN_LENGTH. -/
  | valueField
  /-- A nonzero NB for a command that uses none. -/
  | countField
deriving DecidableEq, Repr

/-- A row that uses neither V nor NB. -/
def decodePlain (i : Instr) (v : BitVec 2) (nb : BitVec 7) : Except Illegal Instr :=
  if v ≠ 0#2 then .error .valueField else if nb ≠ 0#7 then .error .countField else .ok i

/-- A row that uses V as a full bit value (R50). -/
def decodeValue (mk : BitVal → Instr) (v : BitVec 2) (nb : BitVec 7) : Except Illegal Instr :=
  if nb ≠ 0#7 then .error .countField else .ok (mk (BitVal.ofCode v))

/-- A row that uses NB as a bit count (R51). -/
def decodeCount (mk : BitVec 7 → Instr) (v : BitVec 2) (nb : BitVec 7) : Except Illegal Instr :=
  if v ≠ 0#2 then .error .valueField else .ok (mk nb)

/-- The RUN_LENGTH row: the target is CMD[22] and CMD[23] must be 0 (R50). -/
def decodeTarget (mk : Bool → Instr) (v : BitVec 2) (nb : BitVec 7) : Except Illegal Instr :=
  if v.getLsbD 1 then .error .valueField
  else if nb ≠ 0#7 then .error .countField
  else .ok (mk (v.getLsbD 0))

/-- The opcode map of R54, one line a row. -/
def decodeFields (opc : BitVec 8) (v : BitVec 2) (nb : BitVec 7) : Except Illegal Instr :=
  match opc.toNat with
  | 0x01 => decodePlain .getBit v nb
  | 0x02 => decodePlain .getBitHl v nb
  | 0x03 => decodeValue .setBit v nb
  | 0x04 => decodeValue .findFirstBit v nb
  | 0x05 => decodePlain .nthSetBit v nb
  | 0x10 => decodeValue .setNextBit v nb
  | 0x11 => decodePlain .getNextBitHl v nb
  | 0x12 => decodePlain .setBits v nb
  | 0x13 => decodeCount .setUint v nb
  | 0x14 => decodeCount .getUint v nb
  | 0x15 => decodeCount .getInt16Msb v nb
  | 0x16 => decodeValue .fill v nb
  | 0x17 => decodePlain .sparePadding v nb
  | 0x18 => decodePlain .getBytes v nb
  | 0x19 => decodePlain .setBytes v nb
  | 0x1A => decodeCount .readField v nb
  | 0x1B => decodeCount .writeField v nb
  | 0x1C => decodePlain .unhex v nb
  | 0x20 => decodePlain .zero v nb
  | 0x21 => decodePlain .pack v nb
  | 0x22 => decodePlain .unpack v nb
  | 0x23 => decodePlain .display v nb
  | 0x24 => decodeTarget .runLength v nb
  | 0x25 => decodePlain .shiftLeft v nb
  | _ => .error .opcode

/-- Decoding of a command word (R55, R56). -/
def decode (cmd : CmdWord) : Except Illegal Instr :=
  if fieldRsv cmd ≠ 0#15 then .error .reserved
  else decodeFields (fieldOpc cmd) (fieldV cmd) (fieldNb cmd)

/-- The instruction the decoder reads from a word of spec/opcode_table.json; the table's rows are all of 32 bits. -/
def decodeTableWord (nbits w : Nat) : Option Instr :=
  (decode (BitVec.ofNat 32 (w % 2 ^ nbits))).toOption

/-- `CMD = OPC : V : NB : 0...0` (R49). -/
def assembleWord (opc : BitVec 8) (v : BitVec 2) (nb : BitVec 7) : CmdWord :=
  opc ++ v ++ nb ++ 0#15

/-- The one command word of each command (R54, R62). -/
def encode : Instr → CmdWord
  | .getBit => assembleWord 0x01#8 0#2 0#7
  | .getBitHl => assembleWord 0x02#8 0#2 0#7
  | .setBit v => assembleWord 0x03#8 v.code 0#7
  | .findFirstBit v => assembleWord 0x04#8 v.code 0#7
  | .nthSetBit => assembleWord 0x05#8 0#2 0#7
  | .setNextBit v => assembleWord 0x10#8 v.code 0#7
  | .getNextBitHl => assembleWord 0x11#8 0#2 0#7
  | .setBits => assembleWord 0x12#8 0#2 0#7
  | .setUint nb => assembleWord 0x13#8 0#2 nb
  | .getUint nb => assembleWord 0x14#8 0#2 nb
  | .getInt16Msb nb => assembleWord 0x15#8 0#2 nb
  | .fill v => assembleWord 0x16#8 v.code 0#7
  | .sparePadding => assembleWord 0x17#8 0#2 0#7
  | .getBytes => assembleWord 0x18#8 0#2 0#7
  | .setBytes => assembleWord 0x19#8 0#2 0#7
  | .readField nb => assembleWord 0x1A#8 0#2 nb
  | .writeField nb => assembleWord 0x1B#8 0#2 nb
  | .unhex => assembleWord 0x1C#8 0#2 0#7
  | .zero => assembleWord 0x20#8 0#2 0#7
  | .pack => assembleWord 0x21#8 0#2 0#7
  | .unpack => assembleWord 0x22#8 0#2 0#7
  | .display => assembleWord 0x23#8 0#2 0#7
  | .runLength target => assembleWord 0x24#8 (if target then 1#2 else 0#2) 0#7
  | .shiftLeft => assembleWord 0x25#8 0#2 0#7

end Sys2Proof
end

