-- ==== Sys2Proof/Config.lean ====
section
/-! DEFINITION. What is fixed for one instance of the block: the range of the open parameter `CAP_BYTES`
(00_scope.md rule R8) and the capacity of the one instance that `State.reset` allocates. -/

namespace Sys2Proof

/-- The least capacity in bytes (R8). -/
def Config.minCapBytes : Nat := 1

/-- The greatest capacity in bytes (R8). -/
def Config.maxCapBytes : Nat := 2 ^ 29 - 1

/-- DESIGN CHOICE (log entry 2), unsafe for a statement about `State.reset` alone: the capacity of the instance that
`State.reset` allocates, that of the spec's two-byte scenarios (95_test_vectors.md E7 to E9).
R8 leaves `CAP_BYTES` open, so `State.allocate` takes every capacity. -/
def Config.capBytes : Nat := 2

end Sys2Proof
end

