-- ==== Sys2Proof/Machine/State.lean ====
section
/-! DEFINITION. The state of one Bit Buffer instance (10_state.md rules R14 to R18, R25), the reasons a step could stop,
and the state after reset, which is allocation (70_reset_and_hazards.md rule R108). -/

namespace Sys2Proof.Machine

/-- The block has no fault: "Errors are values" (R90) and no condition traps (R99), so nobody raises one and the type has
no constructor (safe: it forbids nothing the spec allows, as every packet ends in a status). -/
inductive Fault
deriving DecidableEq, Repr

/-- Why an instruction would have no meaning. -/
inductive Refusal where
  /-- Raised by an arm of `exec` for an instruction that has no meaning yet; no arm raises it (safe). -/
  | notModelled (mnemonic : String)
deriving DecidableEq, Repr

/-- The outcome codes of STATUS (R91). -/
inductive Status where
  /-- 0: the command completed. -/
  | ok
  /-- 1: "bit or byte index exceeds buffer capacity". -/
  | outOfRange
  /-- 2: a bad width, or too few written bits for GET_INT16_MSB. -/
  | invalidArgument
  /-- 3: a scan found nothing. -/
  | notFound
  /-- 4: a character that is no hex digit. -/
  | malformedInput
  /-- 5: an undecodable or ill-framed packet. -/
  | illegalCommand
deriving DecidableEq, Repr

/-- One instance of the block, its command port and the host's remaining commands. -/
structure State where
  /-- `CAP_BYTES`, the instance's parameter (R8, R16): written by no command (log entry 1). -/
  cap : Nat
  /-- DATA (R15): the bytes that are not 0x00, by rising address (log entry 6). -/
  data : List Host.Cell
  /-- CURSOR, the next position for sequential access (R14). -/
  cursor : BitVec 32
  /-- STATUS (R18, R91). -/
  status : BitVec 8
  /-- RES (R18). -/
  res : BitVec 64
  /-- RES2 (R18). -/
  res2 : BitVec 32
  /-- OUT (R18). -/
  out : List Byte
  /-- The packet at the command port: CMD, OPA, OPB and IN (R17), written by the host and read by the block. -/
  packet : Packet
  /-- The packets the host has yet to present, in issue order (R4, R42; the model's own field, log entry 3). -/
  script : List Packet
deriving DecidableEq, Repr

/-- Allocation of an instance with capacity `cap` (R89, R108): every value is that of R25, and the port holds the
all-zero packet, which no step reads (log entry 4). -/
def State.allocate (cap : Nat) : State where
  cap := cap
  data := []
  cursor := 0#32
  status := 0#8
  res := 0#64
  res2 := 0#32
  out := []
  packet := { cmd := 0#32, opa := 0#32, opb := 0#64, inp := [] }
  script := []

/-- The machine right after reset (R25, R108), for the capacity of log entry 2. -/
def State.reset : State :=
  State.allocate Config.capBytes

end Sys2Proof.Machine
end

