-- ==== Sys2Proof/Machine/Ops.lean ====
section
/-! DEFINITION. The named operations over the storage, the cursor and the command port: the primitives of 00_scope.md
rules R12 and R13, the low/high pattern of 20_memory.md rules R33 to R35, and the failure of a command (`raise`, R12).
The block takes no exception and returns from none (60_exceptions.md rules R99, R100): `Flow.raised` and the
response of Machine/Flags.lean are its whole failure path, shared by every command. -/

namespace Sys2Proof.Machine

/-! ### The storage bytes -/

/-- What an unlisted storage byte reads as: the reset value 0x00 (R15, R25). -/
def Memory.unlisted : Byte := 0x00#8

/-- The canonical form: addresses strictly rising, and no entry equal to what an unlisted address reads as. -/
abbrev Memory.wf (m : List Host.Cell) : Prop :=
  m.Pairwise (fun c d => c.1 < d.1) ∧ ∀ c ∈ m, c.2 ≠ Memory.unlisted

/-- `DATA[a]` (R12). -/
def Memory.read : List Host.Cell → Nat → Byte
  | [], _ => Memory.unlisted
  | (k, b) :: m, a => if k = a then b else Memory.read m a

/-- The cells at other addresses than `a`. -/
def Memory.erase (m : List Host.Cell) (a : Nat) : List Host.Cell :=
  m.filter (fun c => decide (c.1 ≠ a))

/-- The list with a cell placed before the first higher address. -/
def Memory.insert (a : Nat) (b : Byte) : List Host.Cell → List Host.Cell
  | [] => [(a, b)]
  | c :: m => if a < c.1 then (a, b) :: c :: m else c :: Memory.insert a b m

/-- `DATA[a] <- b` (R12); writing what an unlisted byte reads as removes the entry. -/
def Memory.write (m : List Host.Cell) (a : Nat) (b : Byte) : List Host.Cell :=
  if b = Memory.unlisted then Memory.erase m a else Memory.insert a b (Memory.erase m a)

/-- `MemRead(addr, n)` (R12). -/
def Memory.readBytes (m : List Host.Cell) (addr n : Nat) : List Byte :=
  (List.range n).map (fun k => Memory.read m (addr + k))

/-- `MemWrite(addr, n, v)` with `n = len(v)` (R12). -/
def Memory.writeBytes (m : List Host.Cell) (addr : Nat) : List Byte → List Host.Cell
  | [] => m
  | b :: bs => Memory.writeBytes (Memory.write m addr b) (addr + 1) bs

/-! ### Registers and operands -/

/-- `NBITS = 8 * CAP_BYTES` (R9). -/
def State.nbits (s : State) : Nat := 8 * s.cap

/-- CURSOR as a number. -/
def State.cur (s : State) : Nat := s.cursor.toNat

/-- `CURSOR <- n`; every rule writes a value that fits (R11, R82). -/
def State.setCur (s : State) (n : Nat) : State := { s with cursor := BitVec.ofNat 32 n }

/-- OPA as a number, unsigned and unscaled (R52). -/
def State.opa (s : State) : Nat := s.packet.opa.toNat

/-- OPB (R53). -/
def State.opb (s : State) : BitVec 64 := s.packet.opb

/-- IN (R17). -/
def State.inp (s : State) : List Byte := s.packet.inp

/-! ### Single bits -/

/-- The byte that holds buffer bit `i` (R12). -/
def byteOf (i : Nat) : Nat := i / 8

/-- The numeric bit of that byte (R12, R28). -/
def posOf (i : Nat) : Nat := 7 - i % 8

/-- A byte with its numeric bit `p` set to `b` and its other bits unchanged (R12). -/
def withBit (x : Byte) (p : Nat) (b : Bool) : Byte :=
  if b then x ||| (1#8 <<< p) else x &&& ~~~(1#8 <<< p)

/-- `BitRead(i)` (R12). -/
def State.bitRead (s : State) (i : Nat) : Bool :=
  (Memory.read s.data (byteOf i)).getLsbD (posOf i)

/-- `BitWrite(i, b)` (R12). -/
def State.bitWrite (s : State) (i : Nat) (b : Bool) : State :=
  { s with data := Memory.write s.data (byteOf i) (withBit (Memory.read s.data (byteOf i)) (posOf i) b) }

/-- The fixed low/high pattern (R26, R33). -/
def lowHighPattern : Byte := 0x2B#8

/-- `LPAT(i)`, the physical bit of `low` at index `i` (R12, R33). -/
def lpat (i : Nat) : Bool := lowHighPattern.getLsbD (posOf i)

/-- `Phys(v, i)`, the physical bit written for `v` at index `i` (R12, R34). -/
def phys (v : BitVal) (i : Nat) : Bool :=
  match v with
  | .zero => false
  | .one => true
  | .low => lpat i
  | .high => !lpat i

/-- The plain value of a physical bit (R35). -/
def plainVal (b : Bool) : BitVal := if b then .one else .zero

/-- The low/high value of a physical bit `b` at index `i` (R35). -/
def hlVal (b : Bool) (i : Nat) : BitVal := if b = !lpat i then .high else .low

/-- `HLView(i)` (R35). -/
def State.hlView (s : State) (i : Nat) : BitVal := hlVal (s.bitRead i) i

/-! ### Commands that can fail -/

/-- A command body either goes on with a value or has ended with a status; both keep the writes done so far
(R12 `raise`, R96). -/
inductive Flow (α : Type) where
  | done (a : α) (s : State)
  | raised (st : Status) (s : State)

/-- What follows runs only if nothing was raised: "A `raise` ... ends the whole command that called it" (R13). -/
def Flow.bind {α β : Type} (f : Flow α) (k : α → State → Flow β) : Flow β :=
  match f with
  | .done a s => k a s
  | .raised st s => .raised st s

/-- `GetAt(i)` (R13). -/
def getAt (i : Nat) (s : State) : Flow Bool :=
  if s.nbits ≤ i then .raised .outOfRange s else .done (s.bitRead i) s

/-- `SetAt(i, v)` (R13). -/
def setAt (i : Nat) (v : BitVal) (s : State) : Flow Unit :=
  if s.nbits ≤ i then .raised .outOfRange s else .done () (s.bitWrite i (phys v i))

/-- `SetNext(v)` (R13). -/
def setNext (v : BitVal) (s : State) : Flow Unit :=
  (setAt s.cur v s).bind fun _ t => .done () (t.setCur (t.cur + 1))

/-- `GetAt(CURSOR)`, then advance: the loop body of R73 and R79. -/
def getNext (s : State) : Flow Bool :=
  (getAt s.cur s).bind fun b t => .done b (t.setCur (t.cur + 1))

/-- `SetNext` of each value in turn, stopping at the first that raises. -/
def setNextAll : List BitVal → State → Flow Unit
  | [], s => .done () s
  | v :: vs, s => (setNext v s).bind fun _ t => setNextAll vs t

/-- An accumulated value with one more bit below it. -/
def pushBit (r : Nat) (b : Bool) : Nat := 2 * r + b.toNat

/-- `n` bits at the cursor as an unsigned integer, MSB first (R29), after those accumulated in `r`: the sum of
`b * 2^(nb-1-j)` of R73, taken one bit at a time. -/
def getNextBits : Nat → Nat → State → Flow Nat
  | 0, r, s => .done r s
  | n + 1, r, s => (getNext s).bind fun b t => getNextBits n (pushBit r b) t

/-! ### Unchecked runs of bits, for the rules that check the whole range first -/

/-- The bits at indices `i .. i+n-1`. -/
def State.readBits (s : State) (i n : Nat) : List Bool :=
  (List.range n).map (fun j => s.bitRead (i + j))

/-- `BitWrite` of the bits in turn from index `i` up. -/
def State.writeBits (s : State) (i : Nat) : List Bool → State
  | [] => s
  | b :: bs => (s.bitWrite i b).writeBits (i + 1) bs

/-- The unsigned integer of a list of bits, MSB first (R29). -/
def natOfBits (bits : List Bool) : Nat := bits.foldl pushBit 0

/-- The byte at bit index `i`, MSB first, aligned or not (R30). -/
def State.readByte (s : State) (i : Nat) : Byte :=
  BitVec.ofNat 8 (natOfBits (s.readBits i 8))

/-- The 8 bits of a data byte, MSB first (R30). -/
def bitsOfByte (b : Byte) : List Bool :=
  (List.range 8).map (fun j => b.getLsbD (7 - j))

/-- All storage bytes 0x00 and CURSOR 0 (R83), shared with SHIFT_LEFT (R88). -/
def State.clear (s : State) : State :=
  { s with data := Memory.writeBytes s.data 0 (List.replicate s.cap 0x00#8) }.setCur 0

/-! ### The command port -/

/-- The host presents a packet: it stands whole at the port, and nothing of the packet before it is left (R17). -/
def State.present (s : State) (p : Packet) (rest : List Packet) : State :=
  { s with packet := p, script := rest }

/-- The block while no packet is presented: its state "persists unchanged between commands" (R107). -/
def State.idle (s : State) : State := s

end Sys2Proof.Machine
end

