-- ==== Sys2Proof/Machine/Flags.lean ====
section
/-! DEFINITION. The block has no condition codes (10_state.md rule R22): its one status word is STATUS, written with the
rest of the response by every command (R18, 60_exceptions.md rules R91, R93, R94, R98). -/

namespace Sys2Proof.Machine

/-- The numbers of R91. -/
def Status.code : Status → BitVec 8
  | .ok => 0#8
  | .outOfRange => 1#8
  | .invalidArgument => 2#8
  | .notFound => 3#8
  | .malformedInput => 4#8
  | .illegalCommand => 5#8

/-- The response besides STATUS; what a command's rule does not name is 0 or empty (R18). -/
structure Response where
  res : BitVec 64 := 0#64
  res2 : BitVec 32 := 0#32
  out : List Byte := []
deriving DecidableEq, Repr

/-- Every command writes all four response registers (R18). -/
def State.respond (s : State) (st : Status) (r : Response) : State :=
  { s with status := st.code, res := r.res, res2 := r.res2, out := r.out }

/-- `RES <- zext_64(n)` (R11). -/
def resNat (n : Nat) : BitVec 64 := BitVec.ofNat 64 n

/-- A bit-value code in RES (R32, D36). -/
def resVal (v : BitVal) : BitVec 64 := v.code.zeroExtend 64

/-- ILLEGAL_COMMAND: the response says so and neither DATA nor CURSOR changes (R94). -/
def State.illegal (s : State) : State := s.respond .illegalCommand {}

/-- The end of a command body: OK with its response, or its status with RES = 0, OUT empty and RES2 = `failRes2`, which is
0 but for the field pair (R98). -/
def finish (failRes2 : BitVec 32) : Flow Response → State
  | .done r s => s.respond .ok r
  | .raised st s => s.respond st { res2 := failRes2 }

/-- One command after decoding: the framing check comes first and changes nothing when it fails (R57, R95 step 2). -/
def runCommand (framing : Bool) (failRes2 : BitVec 32) (body : State → Flow Response) (s : State) :
    Host.Outcome State Fault Refusal :=
  .next (if framing then finish failRes2 (body s) else s.illegal)

end Sys2Proof.Machine
end

