-- ==== Sys2Proof/Machine/Operands.lean ====
section
/-! DEFINITION. The operand forms: the framing of IN (30_encoding.md rule R57), the entries of SET_BITS (R57, R71), the
value operands of SET_UINT and WRITE_FIELD (R53), the hex digits of UNHEX (41_sequential.md rule R81) and the
characters of DISPLAY (42_whole_buffer.md rule R86). -/

namespace Sys2Proof.Machine

/-! ### Framing of IN (R57) -/

/-- `len(IN) = n`. -/
def State.inLenIs (s : State) (n : Nat) : Bool := s.inp.length = n

/-- UNHEX: any length, `0 .. 2^32-1`. -/
def State.inLenAny (s : State) : Bool := s.inp.length < 2 ^ 32

/-! ### Entries and values -/

/-- A SET_BITS entry: the code in bits [1:0]; bits [7:2] are ignored (R57). -/
def entryValue (e : Byte) : BitVal := BitVal.ofCode (e.extractLsb' 0 2)

/-- The `n` least significant bits of a value, most significant first, as `zero` and `one` (R29, R72). -/
def valueBits {w : Nat} (val : BitVec w) (n : Nat) : List BitVal :=
  (List.range n).map (fun j => plainVal (val.getLsbD (n - 1 - j)))

/-- `OPB[31:0]`, the value of SET_UINT (R53). -/
def State.opbLow (s : State) : BitVec 32 := s.opb.extractLsb' 0 32

/-! ### Characters -/

/-- The value of a hex digit character, in either case (R81). -/
def hexDigit (c : Byte) : Option (BitVec 4) :=
  let n := c.toNat
  if 0x30 ≤ n ∧ n ≤ 0x39 then some (BitVec.ofNat 4 (n - 0x30))
  else if 0x41 ≤ n ∧ n ≤ 0x46 then some (BitVec.ofNat 4 (n - 0x37))
  else if 0x61 ≤ n ∧ n ≤ 0x66 then some (BitVec.ofNat 4 (n - 0x57))
  else none

/-- `IN[i]`, with the end of IN as the terminating NUL (R81). -/
def charAt (inp : List Byte) (i : Nat) : Byte := inp.getD i 0x00#8

/-- The separator before each group of 8 rendered bits (R86). -/
def displaySeparator : Byte := 0x20#8

/-- The character of a bit in the plain view, '0' or '1' (R86). -/
def displayChar (b : Bool) : Byte := if b then 0x31#8 else 0x30#8

/-- What DISPLAY renders for bit `i` (R86). -/
def State.displayBit (s : State) (i : Nat) : List Byte :=
  if i % 8 = 0 then [displaySeparator, displayChar (s.bitRead i)] else [displayChar (s.bitRead i)]

end Sys2Proof.Machine
end

