-- ==== Sys2Proof/Machine/Positional.lean ====
section
/-! DEFINITION. The five commands of 40_positional.md (rules R63 to R67): bit access at an explicit index, and the two
scans over the whole capacity. None reads or writes CURSOR. -/

namespace Sys2Proof.Machine

/-- GET_BIT (R63). -/
def execGetBit (s : State) : Host.Outcome State Fault Refusal :=
  runCommand (s.inLenIs 0) 0#32
    (fun s => (getAt s.opa s).bind fun b t => .done { res := resNat b.toNat } t) s

/-- GET_BIT_HL (R64). -/
def execGetBitHl (s : State) : Host.Outcome State Fault Refusal :=
  runCommand (s.inLenIs 0) 0#32
    (fun s => (getAt s.opa s).bind fun b t => .done { res := resVal (hlVal b s.opa) } t) s

/-- SET_BIT (R65). -/
def execSetBit (v : BitVal) (s : State) : Host.Outcome State Fault Refusal :=
  runCommand (s.inLenIs 0) 0#32
    (fun s => (setAt s.opa v s).bind fun _ t => .done {} t) s

/-- The first index from `i` on, within `n` indices, whose bit has the plain value `v` (R66). -/
def findFrom (v : BitVal) (s : State) : Nat → Nat → Option Nat
  | _, 0 => none
  | i, n + 1 => if plainVal (s.bitRead i) = v then some i else findFrom v s (i + 1) n

/-- FIND_FIRST_BIT (R66): `low` and `high` are no plain values, so they never match (D17). -/
def execFindFirstBit (v : BitVal) (s : State) : Host.Outcome State Fault Refusal :=
  runCommand (s.inLenIs 0) 0#32
    (fun s => match findFrom v s s.opa (s.nbits - s.opa) with
      | some i => .done { res := resNat i } s
      | none => .raised .notFound s) s

/-- The index at which the count of ones, `k` so far, reaches `n`, scanning `fuel` indices from `i` (R67). -/
def nthFrom (n : Nat) (s : State) : Nat → Nat → Nat → Option Nat
  | _, _, 0 => none
  | k, i, fuel + 1 =>
    if s.bitRead i then
      if k + 1 = n then some i else nthFrom n s (k + 1) (i + 1) fuel
    else nthFrom n s k (i + 1) fuel

/-- NTH_SET_BIT (R67): 1-based, over the whole capacity (D18). -/
def execNthSetBit (s : State) : Host.Outcome State Fault Refusal :=
  runCommand (s.inLenIs 0) 0#32
    (fun s => match nthFrom s.opa s 0 0 s.nbits with
      | some i => .done { res := resNat i } s
      | none => .raised .notFound s) s

end Sys2Proof.Machine
end

