-- ==== Sys2Proof/Machine/Sequential.lean ====
section
/-! DEFINITION. The thirteen commands of 41_sequential.md (rules R68 to R81): bit, integer, byte and hex access at CURSOR,
the 16-bit reader from index 0 and the two commands with an external cursor. Where a rule refuses before it starts, the
test stands first and keeps the state; where it fails in its loop, the bits already written stay (R68, R96). -/

namespace Sys2Proof.Machine

/-- SET_NEXT_BIT (R69). -/
def execSetNextBit (v : BitVal) (s : State) : Host.Outcome State Fault Refusal :=
  runCommand (s.inLenIs 0) 0#32
    (fun s => (setNext v s).bind fun _ t => .done {} t) s

/-- GET_NEXT_BIT_HL (R70). -/
def execGetNextBitHl (s : State) : Host.Outcome State Fault Refusal :=
  runCommand (s.inLenIs 0) 0#32
    (fun s => (getNext s).bind fun b t => .done { res := resVal (hlVal b s.cur) } t) s

/-- SET_BITS (R71). -/
def execSetBits (s : State) : Host.Outcome State Fault Refusal :=
  runCommand (s.inLenIs s.opa) 0#32
    (fun s => (setNextAll (s.inp.map entryValue) s).bind fun _ t => .done {} t) s

/-- SET_UINT (R72). -/
def execSetUint (nb : BitVec 7) (s : State) : Host.Outcome State Fault Refusal :=
  runCommand (s.inLenIs 0) 0#32
    (fun s =>
      if 32 < nb.toNat then .raised .invalidArgument s
      else (setNextAll (valueBits s.opbLow nb.toNat) s).bind fun _ t => .done {} t) s

/-- GET_UINT (R73). -/
def execGetUint (nb : BitVec 7) (s : State) : Host.Outcome State Fault Refusal :=
  runCommand (s.inLenIs 0) 0#32
    (fun s =>
      if 32 < nb.toNat then .raised .invalidArgument s
      else (getNextBits nb.toNat 0 s).bind fun r t => .done { res := resNat r } t) s

/-- GET_INT16_MSB (R74): from index 0, with CURSOR as the guard only (R115). -/
def execGetInt16Msb (nb : BitVec 7) (s : State) : Host.Outcome State Fault Refusal :=
  runCommand (s.inLenIs 0) 0#32
    (fun s =>
      if 15 < nb.toNat ∨ s.cur < nb.toNat then .raised .invalidArgument s
      else .done { res := resNat (natOfBits (s.readBits 0 nb.toNat)) } s) s

/-- FILL (R75). -/
def execFill (v : BitVal) (s : State) : Host.Outcome State Fault Refusal :=
  runCommand (s.inLenIs 0) 0#32
    (fun s => (setNextAll (List.replicate s.opa v) s).bind fun _ t => .done {} t) s

/-- SPARE_PADDING (R76): the count is a signed number, and none is written when it is below 1. -/
def execSparePadding (s : State) : Host.Outcome State Fault Refusal :=
  runCommand (s.inLenIs 0) 0#32
    (fun s =>
      let n : Int := (s.opa : Int) - (s.cur : Int) + 1
      if n < 1 then .done {} s
      else (setNextAll (List.replicate n.toNat .low) s).bind fun _ t => .done {} t) s

/-- GET_BYTES (R77). -/
def execGetBytes (s : State) : Host.Outcome State Fault Refusal :=
  runCommand (s.inLenIs 0) 0#32
    (fun s =>
      if s.nbits < s.cur + 8 * s.opa then .raised .outOfRange s
      else .done { out := (List.range s.opa).map (fun k => s.readByte (s.cur + 8 * k)) }
        (s.setCur (s.cur + 8 * s.opa))) s

/-- SET_BYTES (R78). -/
def execSetBytes (s : State) : Host.Outcome State Fault Refusal :=
  runCommand (s.inLenIs s.opa) 0#32
    (fun s =>
      if s.nbits < s.cur + 8 * s.opa then .raised .outOfRange s
      else .done {} ((s.writeBits s.cur (s.inp.flatMap bitsOfByte)).setCur (s.cur + 8 * s.opa))) s

/-- READ_FIELD (R79): RES2 carries the external cursor, advanced on success and unchanged on failure (R98). -/
def execReadField (nb : BitVec 7) (s : State) : Host.Outcome State Fault Refusal :=
  runCommand (s.inLenIs 0) s.packet.opa
    (fun s =>
      if 64 < nb.toNat then .raised .invalidArgument s
      else if s.nbits < s.opa then .raised .outOfRange s
      else (getNextBits nb.toNat 0 (s.setCur s.opa)).bind fun r t =>
        .done { res := resNat r, res2 := BitVec.ofNat 32 (s.opa + nb.toNat) } t) s

/-- WRITE_FIELD (R80). -/
def execWriteField (nb : BitVec 7) (s : State) : Host.Outcome State Fault Refusal :=
  runCommand (s.inLenIs 0) s.packet.opa
    (fun s =>
      if 64 < nb.toNat then .raised .invalidArgument s
      else if s.nbits < s.opa then .raised .outOfRange s
      else (setNextAll (valueBits s.opb nb.toNat) (s.setCur s.opa)).bind fun _ t =>
        .done { res2 := BitVec.ofNat 32 (s.opa + nb.toNat) } t) s

/-- The digits from index `i` on, `n` of them still wanted (R81): each is written as a field of 4 bits at index `4*i`. -/
def unhexFrom (inp : List Byte) : Nat → Nat → State → Flow Unit
  | _, 0, s => .done () s
  | i, n + 1, s =>
    match hexDigit (charAt inp i) with
    | none => .raised .malformedInput s
    | some d => (setNextAll (valueBits d 4) (s.setCur (4 * i))).bind fun _ t => unhexFrom inp (i + 1) n t

/-- UNHEX (R81). -/
def execUnhex (s : State) : Host.Outcome State Fault Refusal :=
  runCommand s.inLenAny 0#32
    (fun s => (unhexFrom s.inp 0 (2 * s.cap) s).bind fun _ t => .done {} t) s

end Sys2Proof.Machine
end

