-- ==== Sys2Proof/Machine/WholeBuffer.lean ====
section
/-! DEFINITION. The six commands of 42_whole_buffer.md (rules R83 to R88): clear, copy out, copy in, render, leading run and
shift. Each succeeds or is refused by the framing check alone. -/

namespace Sys2Proof.Machine

/-- ZERO (R83). -/
def execZero (s : State) : Host.Outcome State Fault Refusal :=
  runCommand (s.inLenIs 0) 0#32 (fun s => .done {} s.clear) s

/-- PACK (R84). -/
def execPack (s : State) : Host.Outcome State Fault Refusal :=
  runCommand (s.inLenIs 0) 0#32 (fun s => .done { out := Memory.readBytes s.data 0 s.cap } s) s

/-- UNPACK (R85): CURSOR keeps its value (R117). -/
def execUnpack (s : State) : Host.Outcome State Fault Refusal :=
  runCommand (s.inLenIs s.cap) 0#32
    (fun s => .done {} { s with data := Memory.writeBytes s.data 0 s.inp }) s

/-- DISPLAY (R86): the plain view of bits `[0, CURSOR)`. -/
def execDisplay (s : State) : Host.Outcome State Fault Refusal :=
  runCommand (s.inLenIs 0) 0#32
    (fun s => .done { out := (List.range s.cur).flatMap s.displayBit } s) s

/-- RUN_LENGTH (R87): the leading bits equal to the target, bounded by CURSOR. -/
def execRunLength (target : Bool) (s : State) : Host.Outcome State Fault Refusal :=
  runCommand (s.inLenIs 0) 0#32
    (fun s =>
      .done { res := resNat ((List.range s.cur).takeWhile (fun i => s.bitRead i == target)).length } s) s

/-- The storage bits moved `n` places toward index 0, with zeros entering at the end (R88). -/
def State.shiftedBits (s : State) (n : Nat) : List Bool :=
  (List.range s.nbits).map (fun j => if j + n < s.nbits then s.bitRead (j + n) else false)

/-- SHIFT_LEFT (R88): `n = 0` is tested first (C4), and `n >= CURSOR` clears the buffer as ZERO does. -/
def execShiftLeft (s : State) : Host.Outcome State Fault Refusal :=
  runCommand (s.inLenIs 0) 0#32
    (fun s =>
      if s.opa = 0 then .done {} s
      else if s.cur ≤ s.opa then .done {} s.clear
      else .done {} ((s.writeBits 0 (s.shiftedBits s.opa)).setCur (s.cur - s.opa))) s

end Sys2Proof.Machine
end

