-- ==== Sys2Proof/Machine/Dispatch.lean ====
section
/-! DEFINITION. The meaning of every command of 30_encoding.md rule R54, one arm each. -/

namespace Sys2Proof.Machine

def exec (i : Instr) (s : State) : Host.Outcome State Fault Refusal :=
  match i with
  | .getBit => Sys2Proof.Machine.execGetBit s
  | .getBitHl => Sys2Proof.Machine.execGetBitHl s
  | .setBit v => Sys2Proof.Machine.execSetBit v s
  | .findFirstBit v => Sys2Proof.Machine.execFindFirstBit v s
  | .nthSetBit => Sys2Proof.Machine.execNthSetBit s
  | .setNextBit v => Sys2Proof.Machine.execSetNextBit v s
  | .getNextBitHl => Sys2Proof.Machine.execGetNextBitHl s
  | .setBits => Sys2Proof.Machine.execSetBits s
  | .setUint nb => Sys2Proof.Machine.execSetUint nb s
  | .getUint nb => Sys2Proof.Machine.execGetUint nb s
  | .getInt16Msb nb => Sys2Proof.Machine.execGetInt16Msb nb s
  | .fill v => Sys2Proof.Machine.execFill v s
  | .sparePadding => Sys2Proof.Machine.execSparePadding s
  | .getBytes => Sys2Proof.Machine.execGetBytes s
  | .setBytes => Sys2Proof.Machine.execSetBytes s
  | .readField nb => Sys2Proof.Machine.execReadField nb s
  | .writeField nb => Sys2Proof.Machine.execWriteField nb s
  | .unhex => Sys2Proof.Machine.execUnhex s
  | .zero => Sys2Proof.Machine.execZero s
  | .pack => Sys2Proof.Machine.execPack s
  | .unpack => Sys2Proof.Machine.execUnpack s
  | .display => Sys2Proof.Machine.execDisplay s
  | .runLength target => Sys2Proof.Machine.execRunLength target s
  | .shiftLeft => Sys2Proof.Machine.execShiftLeft s

end Sys2Proof.Machine
end

