-- ==== Sys2Proof/Machine/Step.lean ====
section
/-! DEFINITION. One step: the host presents its next packet, and the block decodes and executes it to completion
(00_scope.md rules R4, R5; 30_encoding.md rule R48). With nothing to present the block is idle. -/

namespace Sys2Proof.Machine

/-- One step of the machine. A word that no row matches ends with ILLEGAL_COMMAND (R55, R94). -/
def step (s : State) : Host.Outcome State Fault Refusal :=
  match s.script with
  | [] => .next s.idle
  | p :: rest =>
    match decode p.cmd with
    | .error _ => .next (s.present p rest).illegal
    | .ok i => exec i (s.present p rest)

/-- `s` with one more command for its host to present first: the command word with the given bits, OPA and OPB zero, and IN
as many zero bytes as the command's framing asks for (`CAP_BYTES` for UNPACK, else none: R57). -/
def State.withFetchWord (s : State) (nbits w : Nat) : State :=
  let cmd : CmdWord := BitVec.ofNat 32 (w % 2 ^ nbits)
  let inp : List Byte :=
    match decode cmd with
    | .ok .unpack => List.replicate s.cap 0x00#8
    | _ => []
  { s with script := { cmd := cmd, opa := 0#32, opb := 0#64, inp := inp } :: s.script }

end Sys2Proof.Machine
end

