-- ==== Sys2Proof/Machine/Assembler.lean ====
section
/-! DEFINITION. The host's side of the command port in text: the assembler syntax of 30_encoding.md rule R60 and the
pseudo-instructions of R61. The step does not read this file; it says which packet a line of assembly or a pseudo
command stands for. What R60 leaves open about spelling is log entry 8. -/

namespace Sys2Proof.Machine

/-- A packet for a command with the given operands. -/
def packetOf (i : Instr) (opa : BitVec 32) (opb : BitVec 64) (inp : List Byte) : Packet :=
  { cmd := encode i, opa := opa, opb := opb, inp := inp }

/-! ### Pseudo-instructions (R61) -/

inductive Pseudo where
  | setcur (a : BitVec 32)
  | getNextBit
  | getBitAtCursor
  | setByte (value : BitVec 64)
  | padTo (nbits : Nat)
  | clear
deriving DecidableEq, Repr

/-- The exact expansions of R61; `cursor` is the CURSOR the host read. R61 gives the operand of PAD_TO no range: it expands
where `nbits-1` is an OPA, for `nbits` from 1 to `2^32`, and for no other (DESIGN CHOICE, log entry 9). -/
def Pseudo.expand (cursor : BitVec 32) : Pseudo → Option Packet
  | .setcur a => some (packetOf (.readField 0#7) a 0#64 [])
  | .getNextBit => some (packetOf (.getUint 1#7) 0#32 0#64 [])
  | .getBitAtCursor => some (packetOf .getBit cursor 0#64 [])
  | .setByte value => some (packetOf (.setUint 8#7) 0#32 value [])
  | .padTo nbits =>
    if 1 ≤ nbits ∧ nbits ≤ 2 ^ 32 then some (packetOf .sparePadding (BitVec.ofNat 32 (nbits - 1)) 0#64 []) else none
  | .clear => some (packetOf .zero 0#32 0#64 [])

/-! ### Words and operands of a line (R60) -/

/-- A lexical piece of a line. -/
inductive Token where
  | word (cs : List Char)
  | text (cs : List Char)
  | comma
  | openList
  | closeList
deriving DecidableEq, Repr

/-- What the lexer is inside of; a word or a quoted text is held reversed. -/
inductive LexMode where
  | gap
  | inWord (acc : List Char)
  | inText (acc : List Char)
deriving DecidableEq, Repr

/-- The tokens that close a word, if one is open. -/
def LexMode.flush : LexMode → List Token
  | .inWord acc => [.word acc.reverse]
  | .gap | .inText _ => []

/-- The mode after one more character of a word. -/
def LexMode.extend (c : Char) : LexMode → LexMode
  | .inWord acc => .inWord (c :: acc)
  | .gap | .inText _ => .inWord [c]

/-- The tokens of a line; a quoted text that does not end has none. -/
def lex : LexMode → List Char → Option (List Token)
  | .inText _, [] => none
  | m, [] => some m.flush
  | .inText acc, c :: cs =>
    if c = '"' then (lex .gap cs).map (.text acc.reverse :: ·) else lex (.inText (c :: acc)) cs
  | m, c :: cs =>
    if c = ' ' then (lex .gap cs).map (m.flush ++ ·)
    else if c = '"' then (lex (.inText []) cs).map (m.flush ++ ·)
    else if c = ',' then (lex .gap cs).map (m.flush ++ .comma :: ·)
    else if c = '[' then (lex .gap cs).map (m.flush ++ .openList :: ·)
    else if c = ']' then (lex .gap cs).map (m.flush ++ .closeList :: ·)
    else lex (m.extend c) cs

/-- An operand: a number or a bit value still as its characters, a bracketed list of them, or a quoted string. -/
inductive Operand where
  | word (cs : List Char)
  | list (items : List (List Char))
  | text (cs : List Char)
deriving DecidableEq, Repr

/-- Where the parser of an operand list stands; the items of an open list are held reversed. -/
inductive OperandMode where
  | wanted
  | complete
  | firstItem
  | nextItem (acc : List (List Char))
  | afterItem (acc : List (List Char))
deriving DecidableEq, Repr

/-- The operands of a line, separated by commas. -/
def parseOperands : OperandMode → List Token → Option (List Operand)
  | .wanted, .word w :: ts => (parseOperands .complete ts).map (.word w :: ·)
  | .wanted, .text x :: ts => (parseOperands .complete ts).map (.text x :: ·)
  | .wanted, .openList :: ts => parseOperands .firstItem ts
  | .complete, [] => some []
  | .complete, .comma :: ts => parseOperands .wanted ts
  | .firstItem, .closeList :: ts => (parseOperands .complete ts).map (.list [] :: ·)
  | .firstItem, .word w :: ts => parseOperands (.afterItem [w]) ts
  | .nextItem acc, .word w :: ts => parseOperands (.afterItem (w :: acc)) ts
  | .afterItem acc, .comma :: ts => parseOperands (.nextItem acc) ts
  | .afterItem acc, .closeList :: ts => (parseOperands .complete ts).map (.list acc.reverse :: ·)
  | _, _ => none

/-! ### Numbers and values (R60) -/

/-- The value of a digit character, in either case. -/
def digitValue (c : Char) : Option Nat :=
  let n := c.toNat
  if 0x30 ≤ n ∧ n ≤ 0x39 then some (n - 0x30)
  else if 0x41 ≤ n ∧ n ≤ 0x46 then some (n - 0x37)
  else if 0x61 ≤ n ∧ n ≤ 0x66 then some (n - 0x57)
  else none

/-- The digits of a number in a base, after the value `acc`. -/
def digitsIn (base : Nat) : Nat → List Char → Option Nat
  | acc, [] => some acc
  | acc, c :: cs =>
    match digitValue c with
    | some d => if d < base then digitsIn base (acc * base + d) cs else none
    | none => none

/-- At least one digit. -/
def someDigits (base : Nat) (cs : List Char) : Option Nat :=
  if cs = [] then none else digitsIn base 0 cs

/-- "Numbers are decimal, `0x` hex or `0b` binary." -/
def parseNumber : List Char → Option Nat
  | '0' :: 'x' :: cs => someDigits 16 cs
  | '0' :: 'b' :: cs => someDigits 2 cs
  | cs => someDigits 10 cs

/-- A number that fits `w` bits. -/
def parseBits (w : Nat) (cs : List Char) : Option (BitVec w) :=
  (parseNumber cs).bind fun n => if n < 2 ^ w then some (BitVec.ofNat w n) else none

/-- The spellings of a bit value. -/
def parseValue (cs : List Char) : Option BitVal :=
  if cs = "zero".toList ∨ cs = "0".toList then some .zero
  else if cs = "one".toList ∨ cs = "1".toList then some .one
  else if cs = "low".toList ∨ cs = "L".toList then some .low
  else if cs = "high".toList ∨ cs = "H".toList then some .high
  else none

/-- The RUN_LENGTH target, "spelled `zero` or `one`" and in no other way: R60 lists the digits and letters for `v` alone. -/
def parseTarget (cs : List Char) : Option Bool :=
  if cs = "zero".toList then some false else if cs = "one".toList then some true else none

/-- A SET_BITS entry: a bit value, or the entry byte as a number. -/
def parseEntry (cs : List Char) : Option Byte :=
  match parseValue cs with
  | some v => some (v.code.zeroExtend 8)
  | none => parseBits 8 cs

/-- Every item of a list, or none. -/
def parseAll (f : List Char → Option Byte) : List (List Char) → Option (List Byte)
  | [] => some []
  | x :: xs => (f x).bind fun b => (parseAll f xs).map (b :: ·)

/-- The characters of a quoted string as ASCII bytes, "without a terminator". -/
def textBytes : List Char → Option (List Byte)
  | [] => some []
  | c :: cs => if c.toNat < 128 then (textBytes cs).map (BitVec.ofNat 8 c.toNat :: ·) else none

/-- A bracketed list goes to IN with OPA set to its length. -/
def countedList (i : Instr) (bytes : List Byte) : Option Packet :=
  if bytes.length < 2 ^ 32 then some (packetOf i (BitVec.ofNat 32 bytes.length) 0#64 bytes) else none

/-! ### Lines (R60, R61) -/

/-- "The source's operation names are accepted as aliases of the mnemonics": R54, column "source name". -/
def sourceNames : List (String × String) :=
  [("get_bit", "GET_BIT"), ("get_bit_as_high_low", "GET_BIT_HL"), ("set_bit", "SET_BIT"),
   ("find_first_bit", "FIND_FIRST_BIT"), ("nth_set_bit", "NTH_SET_BIT"), ("set_next_bit", "SET_NEXT_BIT"),
   ("get_next_bit_high_low", "GET_NEXT_BIT_HL"), ("set_bits", "SET_BITS")] ++
  [("set_uint", "SET_UINT"), ("get_uint", "GET_UINT"), ("get_int16_msb", "GET_INT16_MSB"), ("fill", "FILL"),
   ("spare_padding", "SPARE_PADDING"), ("get_bytes", "GET_BYTES"), ("set_bytes", "SET_BYTES"),
   ("read_field", "READ_FIELD")] ++
  [("write_field", "WRITE_FIELD"), ("unhex", "UNHEX"), ("zero", "ZERO"), ("pack", "PACK"), ("unpack", "UNPACK"),
   ("to_display_string", "DISPLAY"), ("run_length", "RUN_LENGTH"), ("shift_left", "SHIFT_LEFT")]

/-- The mnemonic a name stands for. -/
def mnemonicOf (name : String) : String :=
  ((sourceNames.find? (fun r => r.1 == name)).map Prod.snd).getD name

/-- The operand table of R60: `a`, `n`, `count`, `upto`, `start` go to OPA, `nb` to NB, `value` to OPB, `v` to V, `t` to
CMD[22], a list or a string to IN. -/
def assembleCommand (mnemonic : String) (ops : List Operand) : Option Packet :=
  match mnemonic, ops with
  | "GET_BIT", [.word a] => (parseBits 32 a).map fun a => packetOf .getBit a 0#64 []
  | "GET_BIT_HL", [.word a] => (parseBits 32 a).map fun a => packetOf .getBitHl a 0#64 []
  | "SET_BIT", [.word a, .word v] =>
    (parseBits 32 a).bind fun a => (parseValue v).map fun v => packetOf (.setBit v) a 0#64 []
  | "FIND_FIRST_BIT", [.word a, .word v] =>
    (parseBits 32 a).bind fun a => (parseValue v).map fun v => packetOf (.findFirstBit v) a 0#64 []
  | "NTH_SET_BIT", [.word n] => (parseBits 32 n).map fun n => packetOf .nthSetBit n 0#64 []
  | "SET_NEXT_BIT", [.word v] => (parseValue v).map fun v => packetOf (.setNextBit v) 0#32 0#64 []
  | "GET_NEXT_BIT_HL", [] => some (packetOf .getNextBitHl 0#32 0#64 [])
  | "SET_BITS", [.list xs] => (parseAll parseEntry xs).bind fun bs => countedList .setBits bs
  | "SET_UINT", [.word nb, .word value] =>
    (parseBits 7 nb).bind fun nb => (parseBits 64 value).map fun x => packetOf (.setUint nb) 0#32 x []
  | "GET_UINT", [.word nb] => (parseBits 7 nb).map fun nb => packetOf (.getUint nb) 0#32 0#64 []
  | "GET_INT16_MSB", [.word nb] => (parseBits 7 nb).map fun nb => packetOf (.getInt16Msb nb) 0#32 0#64 []
  | "FILL", [.word n, .word v] =>
    (parseBits 32 n).bind fun n => (parseValue v).map fun v => packetOf (.fill v) n 0#64 []
  | "SPARE_PADDING", [.word u] => (parseBits 32 u).map fun u => packetOf .sparePadding u 0#64 []
  | "GET_BYTES", [.word n] => (parseBits 32 n).map fun n => packetOf .getBytes n 0#64 []
  | "SET_BYTES", [.list xs] => (parseAll (parseBits 8) xs).bind fun bs => countedList .setBytes bs
  | "READ_FIELD", [.word a, .word nb] =>
    (parseBits 32 a).bind fun a => (parseBits 7 nb).map fun nb => packetOf (.readField nb) a 0#64 []
  | "WRITE_FIELD", [.word a, .word nb, .word value] =>
    (parseBits 32 a).bind fun a => (parseBits 7 nb).bind fun nb => (parseBits 64 value).map fun x =>
      packetOf (.writeField nb) a x []
  | "UNHEX", [.text cs] => (textBytes cs).map fun bs => packetOf .unhex 0#32 0#64 bs
  | "ZERO", [] => some (packetOf .zero 0#32 0#64 [])
  | "PACK", [] => some (packetOf .pack 0#32 0#64 [])
  | "UNPACK", [.list xs] => (parseAll (parseBits 8) xs).map fun bs => packetOf .unpack 0#32 0#64 bs
  | "DISPLAY", [] => some (packetOf .display 0#32 0#64 [])
  | "RUN_LENGTH", [.word t] => (parseTarget t).map fun t => packetOf (.runLength t) 0#32 0#64 []
  | "SHIFT_LEFT", [.word n] => (parseBits 32 n).map fun n => packetOf .shiftLeft n 0#64 []
  | _, _ => none

/-- The pseudo-instructions of R61 as lines. -/
def assemblePseudo (mnemonic : String) (ops : List Operand) : Option Pseudo :=
  match mnemonic, ops with
  | "SETCUR", [.word a] => (parseBits 32 a).map Pseudo.setcur
  | "GET_NEXT_BIT", [] => some .getNextBit
  | "GET_BIT_AT_CURSOR", [] => some .getBitAtCursor
  | "SET_BYTE", [.word x] => (parseBits 64 x).map Pseudo.setByte
  | "PAD_TO", [.word n] => (parseNumber n).map Pseudo.padTo
  | "CLEAR", [] => some .clear
  | _, _ => none

/-- The packet of one line: "the mnemonic first, operands after it separated by commas". `cursor` is the CURSOR the host
read, which only GET_BIT_AT_CURSOR uses. -/
def assembleLine (cursor : BitVec 32) (line : String) : Option Packet :=
  match lex .gap line.toList with
  | some (.word name :: ts) =>
    match (if ts = [] then some [] else parseOperands .wanted ts) with
    | some ops =>
      let m := mnemonicOf (String.ofList name)
      match assemblePseudo m ops with
      | some p => p.expand cursor
      | none => assembleCommand m ops
    | none => none
  | _ => none

end Sys2Proof.Machine
end

