-- ==== Sys2Proof/WellFormed.lean ====
section
/-! DEFINITION. What the spec asks of a capacity, of a packet and of a command before it can run to its own effect:
the range of `CAP_BYTES` (R8), the length of IN (R17) and the NB limits (R51). A command that is not well-formed still
decodes and runs: it ends with INVALID_ARGUMENT (R95 step 3). -/

namespace Sys2Proof

/-- `1 <= CAP_BYTES <= 2^29 - 1` (R8). -/
def capacityOk (cap : Nat) : Bool :=
  Config.minCapBytes ≤ cap && cap ≤ Config.maxCapBytes

/-- IN is a sequence of `0 .. 2^32-1` bytes (R17). -/
def Packet.WellFormed (p : Packet) : Bool :=
  p.inp.length < 2 ^ 32

/-- NB is within the limit the command accepts (R51): 32 for the integer pair, 15 for the 16-bit reader, 64 for the
field pair. -/
def Instr.WellFormed : Instr → Bool
  | .setUint nb => nb.toNat ≤ 32
  | .getUint nb => nb.toNat ≤ 32
  | .getInt16Msb nb => nb.toNat ≤ 15
  | .readField nb => nb.toNat ≤ 64
  | .writeField nb => nb.toNat ≤ 64
  | .getBit | .getBitHl | .setBit _ | .findFirstBit _ | .nthSetBit | .setNextBit _ | .getNextBitHl | .setBits
  | .fill _ | .sparePadding | .getBytes | .setBytes | .unhex | .zero | .pack | .unpack | .display | .runLength _
  | .shiftLeft => true

end Sys2Proof
end

