-- ==== Sys2Proof/Safety.lean ====
section
/-! DEFINITION. What counts as a safe run, in the terms the claims use: the invariant of an instance, the bits a command
writes and the bytes it leaves alone, the value of a field of bits, and the spec's own tables of statuses
(60_exceptions.md rules R92, R95) and of framing (30_encoding.md rule R57). -/

namespace Sys2Proof.Machine

/-- The invariant of an instance: a capacity in range (R8), a canonical storage inside it (R15), `CURSOR <= NBITS` (R24), a
STATUS that is one of `0 .. 5` (R91), and no result beside a failure (R98). -/
abbrev State.Inv (s : State) : Prop :=
  capacityOk s.cap = true ∧ Memory.wf s.data ∧ (∀ c ∈ s.data, c.1 < s.cap) ∧ s.cur ≤ s.nbits
    ∧ s.status.toNat ≤ 5 ∧ (s.status ≠ 0#8 → s.res = 0#64 ∧ s.out = [])

/-- `t` holds `bit i` at each index `i` of `start .. start+n-1` and what `s` holds at every other, and every byte that none of
those indices lies in reads as before. -/
def BitsWritten (s t : State) (start n : Nat) (bit : Nat → Bool) : Prop :=
  (∀ i, t.bitRead i = if start ≤ i ∧ i < start + n then bit i else s.bitRead i)
    ∧ ∀ a, (∀ i, start ≤ i → i < start + n → byteOf i ≠ a) → Memory.read t.data a = Memory.read s.data a

/-- The unsigned integer of `n` bits from index `start`, its bit of weight `2^(n-1)` at `start` (R29). -/
def uintAt (s : State) (start n : Nat) : Nat :=
  ∑ j ∈ Finset.range n, (s.bitRead (start + j)).toNat * 2 ^ (n - 1 - j)

/-- The length of IN that R57 asks for; UNHEX takes any below `2^32`. -/
def FramedBy (s : State) : Instr → Prop
  | .setBits | .setBytes => s.inp.length = s.opa
  | .unpack => s.inp.length = s.cap
  | .unhex => s.inp.length < 2 ^ 32
  | .getBit | .getBitHl | .setBit _ | .findFirstBit _ | .nthSetBit | .setNextBit _ | .getNextBitHl | .setUint _
  | .getUint _ | .getInt16Msb _ | .fill _ | .sparePadding | .getBytes | .readField _ | .writeField _ | .zero | .pack
  | .display | .runLength _ | .shiftLeft => s.inp = []

/-- The column INVALID_ARGUMENT of R92. -/
def InvalidArgumentWhen (s : State) : Instr → Prop
  | .setUint nb | .getUint nb => 32 < nb.toNat
  | .getInt16Msb nb => 15 < nb.toNat ∨ s.cur < nb.toNat
  | .readField nb | .writeField nb => 64 < nb.toNat
  | .getBit | .getBitHl | .setBit _ | .findFirstBit _ | .nthSetBit | .setNextBit _ | .getNextBitHl | .setBits
  | .fill _ | .sparePadding | .getBytes | .setBytes | .unhex | .zero | .pack | .unpack | .display | .runLength _
  | .shiftLeft => False

/-- The column OUT_OF_RANGE of R92. -/
def OutOfRangeWhen (s : State) : Instr → Prop
  | .getBit | .getBitHl | .setBit _ => s.nbits ≤ s.opa
  | .setNextBit _ | .getNextBitHl => s.cur = s.nbits
  | .setBits | .fill _ => s.nbits < s.cur + s.opa
  | .setUint nb | .getUint nb => s.nbits < s.cur + nb.toNat
  | .sparePadding => s.nbits ≤ s.opa ∧ s.cur ≤ s.opa
  | .getBytes | .setBytes => s.nbits < s.cur + 8 * s.opa
  | .readField nb | .writeField nb => s.nbits < s.opa ∨ s.nbits < s.opa + nb.toNat
  | .findFirstBit _ | .nthSetBit | .getInt16Msb _ | .unhex | .zero | .pack | .unpack | .display | .runLength _
  | .shiftLeft => False

/-- The number of bits equal to 1 among the indices below `n`. -/
def onesBelow (s : State) (n : Nat) : Nat := ((List.range n).filter s.bitRead).length

/-- The column NOT_FOUND of R92. -/
def NotFoundWhen (s : State) : Instr → Prop
  | .findFirstBit v => ∀ i, s.opa ≤ i → i < s.nbits → plainVal (s.bitRead i) ≠ v
  | .nthSetBit => onesBelow s s.nbits < s.opa ∨ s.opa = 0
  | .getBit | .getBitHl | .setBit _ | .setNextBit _ | .getNextBitHl | .setBits | .setUint _ | .getUint _
  | .getInt16Msb _ | .fill _ | .sparePadding | .getBytes | .setBytes | .readField _ | .writeField _ | .unhex | .zero
  | .pack | .unpack | .display | .runLength _ | .shiftLeft => False

/-- The column MALFORMED_INPUT of R92; past the end of IN stands a NUL, which is no digit (R81). -/
def MalformedInputWhen (s : State) : Instr → Prop
  | .unhex => ∃ i, i < 2 * s.cap ∧ hexDigit (charAt s.inp i) = none
  | .getBit | .getBitHl | .setBit _ | .findFirstBit _ | .nthSetBit | .setNextBit _ | .getNextBitHl | .setBits
  | .setUint _ | .getUint _ | .getInt16Msb _ | .fill _ | .sparePadding | .getBytes | .setBytes | .readField _
  | .writeField _ | .zero | .pack | .unpack | .display | .runLength _ | .shiftLeft => False

/-- The commands that write the storage (R38). -/
def WritesData : Instr → Bool
  | .setBit _ | .setNextBit _ | .setBits | .setUint _ | .fill _ | .sparePadding | .setBytes | .writeField _ | .unhex
  | .zero | .unpack | .shiftLeft => true
  | .getBit | .getBitHl | .findFirstBit _ | .nthSetBit | .getNextBitHl | .getUint _ | .getInt16Msb _ | .getBytes
  | .readField _ | .pack | .display | .runLength _ => false

/-- The commands of the row "never" of R19. -/
def NeverWritesCursor : Instr → Bool
  | .getBit | .getBitHl | .setBit _ | .findFirstBit _ | .nthSetBit | .getInt16Msb _ | .pack | .unpack | .display
  | .runLength _ => true
  | .setNextBit _ | .getNextBitHl | .setBits | .setUint _ | .getUint _ | .fill _ | .sparePadding | .getBytes
  | .setBytes | .readField _ | .writeField _ | .unhex | .zero | .shiftLeft => false

/-- The pair with an external cursor, whose RES2 on a failure is OPA (R98). -/
def HasExternalCursor : Instr → Bool
  | .readField _ | .writeField _ => true
  | .getBit | .getBitHl | .setBit _ | .findFirstBit _ | .nthSetBit | .setNextBit _ | .getNextBitHl | .setBits
  | .setUint _ | .getUint _ | .getInt16Msb _ | .fill _ | .sparePadding | .getBytes | .setBytes | .unhex | .zero
  | .pack | .unpack | .display | .runLength _ | .shiftLeft => false

/-- `len(OUT)` after a command that ends with OK (R58). -/
def OutLength (s : State) : Instr → Nat
  | .getBytes => s.opa
  | .pack => s.cap
  | .display => s.cur + (s.cur + 7) / 8
  | .getBit | .getBitHl | .setBit _ | .findFirstBit _ | .nthSetBit | .setNextBit _ | .getNextBitHl | .setBits
  | .setUint _ | .getUint _ | .getInt16Msb _ | .fill _ | .sparePadding | .setBytes | .readField _ | .writeField _
  | .unhex | .zero | .unpack | .runLength _ | .shiftLeft => 0

/-- The mask of a command's row (R55). -/
def rowMask : Instr → CmdWord
  | .setBit _ | .findFirstBit _ | .setNextBit _ | .fill _ => 0xFF3FFFFF#32
  | .setUint _ | .getUint _ | .getInt16Msb _ | .readField _ | .writeField _ => 0xFFC07FFF#32
  | .runLength _ => 0xFFBFFFFF#32
  | .getBit | .getBitHl | .nthSetBit | .getNextBitHl | .setBits | .sparePadding | .getBytes | .setBytes | .unhex
  | .zero | .pack | .unpack | .display | .shiftLeft => 0xFFFFFFFF#32

/-- The match word of a command's row, `OPC << 24` (R54, R55). -/
def rowMatch : Instr → CmdWord
  | .getBit => 0x01000000#32
  | .getBitHl => 0x02000000#32
  | .setBit _ => 0x03000000#32
  | .findFirstBit _ => 0x04000000#32
  | .nthSetBit => 0x05000000#32
  | .setNextBit _ => 0x10000000#32
  | .getNextBitHl => 0x11000000#32
  | .setBits => 0x12000000#32
  | .setUint _ => 0x13000000#32
  | .getUint _ => 0x14000000#32
  | .getInt16Msb _ => 0x15000000#32
  | .fill _ => 0x16000000#32
  | .sparePadding => 0x17000000#32
  | .getBytes => 0x18000000#32
  | .setBytes => 0x19000000#32
  | .readField _ => 0x1A000000#32
  | .writeField _ => 0x1B000000#32
  | .unhex => 0x1C000000#32
  | .zero => 0x20000000#32
  | .pack => 0x21000000#32
  | .unpack => 0x22000000#32
  | .display => 0x23000000#32
  | .runLength _ => 0x24000000#32
  | .shiftLeft => 0x25000000#32

end Sys2Proof.Machine
end

