-- ==== Sys2Proof/Certificates/Slice0/Obligations.lean ====
section
/-! DEFINITION. The statements for the provers. Each follows the numbered rules of spec/ that its docstring names. A command's
statement has one clause for each way the rule lets the command end; a clause gives the whole next state, so what it does
not update is unchanged. Where a command stores, the clause gives every bit after it and every byte it leaves alone
(`BitsWritten`). -/

open Sys2Proof Sys2Proof.Machine

/-! ### Encoding (30_encoding.md) -/

/-- R49, R54: every field of every command survives encoding and decoding. -/
def Obligations.DecodeOfEncode : Prop :=
  ∀ i : Instr, decode (encode i) = .ok i

/-- R62: a word that decodes to a command is the command's one encoding. -/
def Obligations.OneWordForEachCommand : Prop :=
  ∀ (w : CmdWord) (i : Instr), decode w = .ok i → w = encode i

/-- R55: a word selects the row it matches under the row's mask, and a word that no row matches is illegal. -/
def Obligations.DecodeSelectsTheMatchingRow : Prop :=
  ∀ w : CmdWord,
    (∀ i, decode w = .ok i → w &&& rowMask i = rowMatch i) ∧
    (∀ i, w &&& rowMask i = rowMatch i → ∃ j, decode w = .ok j ∧ rowMatch j = rowMatch i) ∧
    (∀ (s : State) (p : Packet) (rest : List Packet), p.cmd = w → s.script = p :: rest →
      (∀ i, w &&& rowMask i ≠ rowMatch i) → ∃ t, step s = .next t ∧ t.status = 5#8)

/-- Words that 41_sequential.md and 42_whole_buffer.md write out (R69, R72, R73, R80, R87). -/
def Obligations.WrittenOutWordsDecode : Prop :=
  decode 0x10C00000#32 = .ok (.setNextBit .high) ∧ decode 0x13018000#32 = .ok (.setUint 3#7) ∧
  decode 0x13100000#32 = .ok (.setUint 32#7) ∧ decode 0x14008000#32 = .ok (.getUint 1#7) ∧
  decode 0x1B020000#32 = .ok (.writeField 4#7) ∧ decode 0x24400000#32 = .ok (.runLength true) ∧
  decode 0x24800000#32 = .error .valueField

/-! ### The command port and the step -/

/-- R4, R5, R48: a step presents the next packet and, when its word decodes, is that command's `exec`. -/
def Obligations.StepRunsTheDecodedCommand : Prop :=
  ∀ (s : State) (p : Packet) (rest : List Packet) (i : Instr), s.script = p :: rest → decode p.cmd = .ok i →
    step s = exec i { s with packet := p, script := rest }

/-- R107 and log entry 5: with no packet to present, the state persists. -/
def Obligations.IdleBlockKeepsItsState : Prop :=
  ∀ s : State, s.script = [] → step s = .next s

/-- R94: an undecodable word and a bad IN length both end with ILLEGAL_COMMAND and change neither DATA nor CURSOR. -/
def Obligations.IllegalPacketChangesNothing : Prop :=
  (∀ (s : State) (p : Packet) (rest : List Packet) (e : Illegal), s.script = p :: rest → decode p.cmd = .error e →
    step s = .next { s with packet := p, script := rest, status := 5#8, res := 0#64, res2 := 0#32, out := [] }) ∧
  (∀ (s : State) (p : Packet) (rest : List Packet) (i : Instr), s.script = p :: rest → decode p.cmd = .ok i →
    ¬ FramedBy { s with packet := p, script := rest } i →
    step s = .next { s with packet := p, script := rest, status := 5#8, res := 0#64, res2 := 0#32, out := [] })

/-- R57: the length of IN is checked before anything else, for every command. -/
def Obligations.BadFramingIsIllegal : Prop :=
  ∀ (i : Instr) (s : State), ¬ FramedBy s i →
    exec i s = .next { s with status := 5#8, res := 0#64, res2 := 0#32, out := [] }

/-- R90, R99: every step ends in a next state; no packet stops the block. -/
def Obligations.NoPacketStopsTheBlock : Prop :=
  ∀ s : State, ∃ t, step s = .next t

/-- R16, R17: a command changes neither the capacity nor the packet at the port nor what the host presents next. -/
def Obligations.CommandKeepsCapacityAndPort : Prop :=
  ∀ (i : Instr) (s t : State), exec i s = .next t → t.cap = s.cap ∧ t.packet = s.packet ∧ t.script = s.script

/-! ### Reset and invariants -/

/-- R25: the values right after allocation, for every capacity. -/
def Obligations.AllocationValues : Prop :=
  ∀ cap : Nat, (∀ a, Memory.read (State.allocate cap).data a = 0x00#8) ∧ (State.allocate cap).cursor = 0#32 ∧
    (State.allocate cap).status = 0#8 ∧ (State.allocate cap).res = 0#64 ∧ (State.allocate cap).res2 = 0#32 ∧
    (State.allocate cap).out = []

/-- The invariant holds of every allocated instance, and of the one that `State.reset` allocates (its capacity is the
model's choice, log entry 2). -/
def Obligations.AllocationMeetsTheInvariant : Prop :=
  (∀ cap : Nat, capacityOk cap = true → (State.allocate cap).Inv) ∧ State.reset.Inv

/-- Every step keeps the invariant of an instance. -/
def Obligations.StepKeepsTheInvariant : Prop :=
  ∀ s t : State, s.Inv → step s = .next t → t.Inv

/-- R24: CURSOR never passes NBITS, after reset and after every command. -/
def Obligations.CursorStaysWithinCapacity : Prop :=
  (∀ cap : Nat, (State.allocate cap).cur ≤ (State.allocate cap).nbits) ∧
  (∀ s t : State, capacityOk s.cap = true → s.cur ≤ s.nbits → step s = .next t → t.cur ≤ t.nbits)

/-- R109: after ZERO the whole state of the block equals the state after allocation. -/
def Obligations.ZeroEqualsAllocation : Prop :=
  ∀ s : State, s.Inv → s.inp = [] →
    exec .zero s = .next { State.allocate s.cap with packet := s.packet, script := s.script }

/-! ### Rules over all commands -/

/-- R22: no command reads STATUS, nor any other response register. -/
def Obligations.EarlierResponsesAreNotRead : Prop :=
  ∀ (i : Instr) (s : State) (st : BitVec 8) (res : BitVec 64) (res2 : BitVec 32) (out : List Byte),
    exec i { s with status := st, res := res, res2 := res2, out := out } = exec i s

/-- R98: what the response holds when STATUS is not OK. -/
def Obligations.FailureResponse : Prop :=
  ∀ (i : Instr) (s t : State), exec i s = .next t → t.status ≠ 0#8 →
    t.res = 0#64 ∧ t.out = [] ∧
    t.res2 = (if HasExternalCursor i = true ∧ t.status ≠ 5#8 then s.packet.opa else 0#32)

/-- R58: the length of OUT after every command. -/
def Obligations.OutputLength : Prop :=
  ∀ (i : Instr) (s t : State), exec i s = .next t →
    (t.status = 0#8 → t.out.length = OutLength s i) ∧ (t.status ≠ 0#8 → t.out = [])

/-- R92, R95: which command ends with which status, and when, with the first failure in the order of R95. -/
def Obligations.StatusTable : Prop :=
  ∀ (i : Instr) (s : State), s.Inv → ∃ t, exec i s = .next t ∧
    (¬ FramedBy s i → t.status = 5#8) ∧
    (FramedBy s i → InvalidArgumentWhen s i → t.status = 2#8) ∧
    (FramedBy s i → ¬ InvalidArgumentWhen s i → OutOfRangeWhen s i → t.status = 1#8) ∧
    (FramedBy s i → NotFoundWhen s i → t.status = 3#8) ∧
    (FramedBy s i → MalformedInputWhen s i → t.status = 4#8) ∧
    (FramedBy s i → ¬ InvalidArgumentWhen s i → ¬ OutOfRangeWhen s i → ¬ NotFoundWhen s i →
      ¬ MalformedInputWhen s i → t.status = 0#8)

/-- R38, R39: a command that only reads leaves the storage as it was. -/
def Obligations.ReadingCommandsKeepData : Prop :=
  ∀ (i : Instr) (s t : State), WritesData i = false → exec i s = .next t → t.data = s.data

/-- R19, row "never": these commands, and every command that ends in ILLEGAL_COMMAND, leave CURSOR as it was. -/
def Obligations.CursorKeepingCommands : Prop :=
  ∀ (i : Instr) (s t : State), exec i s = .next t → NeverWritesCursor i = true ∨ t.status = 5#8 → t.cursor = s.cursor

/-! ### Bits and bit values (20_memory.md) -/

/-- R28: bit index `i` is the bit of weight `2^(7 - i mod 8)` of byte `i div 8`. -/
def Obligations.BitIndexIsMsbFirst : Prop :=
  (∀ (s : State) (i : Nat), s.bitRead i = (Memory.read s.data (i / 8)).getLsbD (7 - i % 8)) ∧
  (∀ (s : State) (k : Nat), s.bitRead (8 * k) = (Memory.read s.data k).msb ∧
    s.bitRead (8 * k + 7) = (Memory.read s.data k).getLsbD 0)

/-- R33: the table of the pattern, and the bytes that eight `low` and eight `high` bits form at an aligned index. -/
def Obligations.LowHighPatternBytes : Prop :=
  (∀ i : Nat, phys .low i = [false, false, true, false, true, false, true, true].getD (i % 8) false ∧
    phys .high i = [true, true, false, true, false, true, false, false].getD (i % 8) false) ∧
  (∀ (s : State) (a : Nat), s.Inv → s.inp = [] → a < s.cap → s.cur = 8 * a → s.opa = 8 →
    (∃ t, exec (.fill .low) s = .next t ∧ t.status = 0#8 ∧ Memory.read t.data a = 0x2B#8) ∧
    (∃ t, exec (.fill .high) s = .next t ∧ t.status = 0#8 ∧ Memory.read t.data a = 0xD4#8))

/-- R35: GET_BIT_HL after SET_BIT of `high` gives `high`, and of `low` gives `low`, at every position. -/
def Obligations.HighLowSymmetry : Prop :=
  ∀ s : State, s.inp = [] → s.opa < s.nbits →
    (∃ t, exec (.setBit .high) s = .next t ∧ exec .getBitHl t = .next { t with res := 3#64 }) ∧
    (∃ t, exec (.setBit .low) s = .next t ∧ exec .getBitHl t = .next { t with res := 2#64 })

/-- R45: a bit written by SET_BIT is read back by the next GET_BIT of the same index. -/
def Obligations.SetBitThenGetBit : Prop :=
  ∀ s : State, s.inp = [] → s.opa < s.nbits →
    (∃ t, exec (.setBit .one) s = .next t ∧ exec .getBit t = .next { t with res := 1#64 }) ∧
    (∃ t, exec (.setBit .zero) s = .next t ∧ exec .getBit t = .next { t with res := 0#64 })

/-! ### Positional commands (40_positional.md) -/

/-- R63. -/
def Obligations.GetBitReads : Prop :=
  encode .getBit = 0x01000000#32 ∧
  (∀ s : State, s.inp = [] → s.opa < s.nbits →
    exec .getBit s = .next
      { s with status := 0#8, res := if s.bitRead s.opa then 1#64 else 0#64, res2 := 0#32, out := [] }) ∧
  (∀ s : State, s.inp = [] → s.nbits ≤ s.opa →
    exec .getBit s = .next { s with status := 1#8, res := 0#64, res2 := 0#32, out := [] })

/-- R64. -/
def Obligations.GetBitHlReads : Prop :=
  encode .getBitHl = 0x02000000#32 ∧
  (∀ s : State, s.inp = [] → s.opa < s.nbits →
    exec .getBitHl s = .next
      { s with status := 0#8, res := if s.bitRead s.opa = lpat s.opa then 2#64 else 3#64, res2 := 0#32, out := [] }) ∧
  (∀ s : State, s.inp = [] → s.nbits ≤ s.opa →
    exec .getBitHl s = .next { s with status := 1#8, res := 0#64, res2 := 0#32, out := [] })

/-- R65. -/
def Obligations.SetBitWrites : Prop :=
  (encode (.setBit .zero) = 0x03000000#32 ∧ encode (.setBit .one) = 0x03400000#32 ∧
    encode (.setBit .low) = 0x03800000#32 ∧ encode (.setBit .high) = 0x03C00000#32) ∧
  (∀ (s : State) (v : BitVal), s.inp = [] → s.opa < s.nbits →
    ∃ t, exec (.setBit v) s = .next t ∧
      t = { s with data := t.data, status := 0#8, res := 0#64, res2 := 0#32, out := [] } ∧
      BitsWritten s t s.opa 1 (phys v)) ∧
  (∀ (s : State) (v : BitVal), s.inp = [] → s.nbits ≤ s.opa →
    exec (.setBit v) s = .next { s with status := 1#8, res := 0#64, res2 := 0#32, out := [] })

/-- R66. -/
def Obligations.FindFirstBitScans : Prop :=
  (encode (.findFirstBit .zero) = 0x04000000#32 ∧ encode (.findFirstBit .one) = 0x04400000#32 ∧
    encode (.findFirstBit .low) = 0x04800000#32 ∧ encode (.findFirstBit .high) = 0x04C00000#32) ∧
  (∀ (s : State) (b : Bool) (i : Nat), s.inp = [] → s.opa ≤ i → i < s.nbits → s.bitRead i = b →
    (∀ j, s.opa ≤ j → j < i → s.bitRead j ≠ b) →
    exec (.findFirstBit (if b then .one else .zero)) s = .next
      { s with status := 0#8, res := BitVec.ofNat 64 i, res2 := 0#32, out := [] }) ∧
  (∀ (s : State) (b : Bool), s.inp = [] → (∀ j, s.opa ≤ j → j < s.nbits → s.bitRead j ≠ b) →
    exec (.findFirstBit (if b then .one else .zero)) s = .next
      { s with status := 3#8, res := 0#64, res2 := 0#32, out := [] }) ∧
  (∀ (s : State) (v : BitVal), s.inp = [] → v = .low ∨ v = .high →
    exec (.findFirstBit v) s = .next { s with status := 3#8, res := 0#64, res2 := 0#32, out := [] })

/-- R67: the index of the `n`-th 1, which has `n - 1` ones below it. -/
def Obligations.NthSetBitCounts : Prop :=
  encode .nthSetBit = 0x05000000#32 ∧
  (∀ (s : State) (i : Nat), s.inp = [] → i < s.nbits → s.bitRead i = true → onesBelow s i + 1 = s.opa →
    exec .nthSetBit s = .next { s with status := 0#8, res := BitVec.ofNat 64 i, res2 := 0#32, out := [] }) ∧
  (∀ s : State, s.inp = [] → onesBelow s s.nbits < s.opa ∨ s.opa = 0 →
    exec .nthSetBit s = .next { s with status := 3#8, res := 0#64, res2 := 0#32, out := [] })

/-! ### Sequential commands (41_sequential.md) -/

/-- R69. -/
def Obligations.SetNextBitWrites : Prop :=
  (encode (.setNextBit .zero) = 0x10000000#32 ∧ encode (.setNextBit .one) = 0x10400000#32 ∧
    encode (.setNextBit .low) = 0x10800000#32 ∧ encode (.setNextBit .high) = 0x10C00000#32) ∧
  (∀ (s : State) (v : BitVal), s.inp = [] → s.cur < s.nbits →
    ∃ t, exec (.setNextBit v) s = .next t ∧
      t = { s with data := t.data, cursor := s.cursor + 1#32, status := 0#8, res := 0#64, res2 := 0#32, out := [] } ∧
      BitsWritten s t s.cur 1 (phys v)) ∧
  (∀ (s : State) (v : BitVal), s.inp = [] → s.cur = s.nbits →
    exec (.setNextBit v) s = .next { s with status := 1#8, res := 0#64, res2 := 0#32, out := [] })

/-- R70. -/
def Obligations.GetNextBitHlReads : Prop :=
  encode .getNextBitHl = 0x11000000#32 ∧
  (∀ s : State, s.inp = [] → s.cur < s.nbits →
    exec .getNextBitHl s = .next
      { s with cursor := s.cursor + 1#32, status := 0#8,
               res := if s.bitRead s.cur = lpat s.cur then 2#64 else 3#64, res2 := 0#32, out := [] }) ∧
  (∀ s : State, s.inp = [] → s.cur = s.nbits →
    exec .getNextBitHl s = .next { s with status := 1#8, res := 0#64, res2 := 0#32, out := [] })

/-- R71: entry `k` is written at index `CURSOR + k` by the code in its two low bits. -/
def Obligations.SetBitsWritesEntries : Prop :=
  encode .setBits = 0x12000000#32 ∧
  (∀ s : State, s.Inv → s.inp.length = s.opa → s.cur + s.opa ≤ s.nbits →
    ∃ t, exec .setBits s = .next t ∧
      t = { s with data := t.data, cursor := BitVec.ofNat 32 (s.cur + s.opa), status := 0#8, res := 0#64,
                   res2 := 0#32, out := [] } ∧
      BitsWritten s t s.cur s.opa
        (fun i => phys (BitVal.ofCode ((s.inp.getD (i - s.cur) 0#8).extractLsb' 0 2)) i)) ∧
  (∀ s : State, s.Inv → s.inp.length = s.opa → s.nbits < s.cur + s.opa →
    ∃ t, exec .setBits s = .next t ∧
      t = { s with data := t.data, cursor := BitVec.ofNat 32 s.nbits, status := 1#8, res := 0#64, res2 := 0#32,
                   out := [] } ∧
      BitsWritten s t s.cur (s.nbits - s.cur)
        (fun i => phys (BitVal.ofCode ((s.inp.getD (i - s.cur) 0#8).extractLsb' 0 2)) i)) ∧
  (∀ s : State, s.inp.length ≠ s.opa →
    exec .setBits s = .next { s with status := 5#8, res := 0#64, res2 := 0#32, out := [] })

/-- R72: the `nb` least significant bits of OPB[31:0], most significant first. -/
def Obligations.SetUintWrites : Prop :=
  (∀ nb : BitVec 7, encode (.setUint nb) = 0x13000000#32 ||| (nb.zeroExtend 32 <<< 15)) ∧
  (∀ (s : State) (nb : BitVec 7), s.Inv → s.inp = [] → nb.toNat ≤ 32 → s.cur + nb.toNat ≤ s.nbits →
    ∃ t, exec (.setUint nb) s = .next t ∧
      t = { s with data := t.data, cursor := BitVec.ofNat 32 (s.cur + nb.toNat), status := 0#8, res := 0#64,
                   res2 := 0#32, out := [] } ∧
      BitsWritten s t s.cur nb.toNat (fun i => s.opb.getLsbD (nb.toNat - 1 - (i - s.cur)))) ∧
  (∀ (s : State) (nb : BitVec 7), s.Inv → s.inp = [] → nb.toNat ≤ 32 → s.nbits < s.cur + nb.toNat →
    ∃ t, exec (.setUint nb) s = .next t ∧
      t = { s with data := t.data, cursor := BitVec.ofNat 32 s.nbits, status := 1#8, res := 0#64, res2 := 0#32,
                   out := [] } ∧
      BitsWritten s t s.cur (s.nbits - s.cur) (fun i => s.opb.getLsbD (nb.toNat - 1 - (i - s.cur)))) ∧
  (∀ (s : State) (nb : BitVec 7), s.inp = [] → 32 < nb.toNat →
    exec (.setUint nb) s = .next { s with status := 2#8, res := 0#64, res2 := 0#32, out := [] })

/-- R73. -/
def Obligations.GetUintReads : Prop :=
  (∀ nb : BitVec 7, encode (.getUint nb) = 0x14000000#32 ||| (nb.zeroExtend 32 <<< 15)) ∧
  (∀ (s : State) (nb : BitVec 7), s.Inv → s.inp = [] → nb.toNat ≤ 32 → s.cur + nb.toNat ≤ s.nbits →
    exec (.getUint nb) s = .next
      { s with cursor := BitVec.ofNat 32 (s.cur + nb.toNat), status := 0#8,
               res := BitVec.ofNat 64 (uintAt s s.cur nb.toNat), res2 := 0#32, out := [] }) ∧
  (∀ (s : State) (nb : BitVec 7), s.Inv → s.inp = [] → nb.toNat ≤ 32 → s.nbits < s.cur + nb.toNat →
    exec (.getUint nb) s = .next
      { s with cursor := BitVec.ofNat 32 s.nbits, status := 1#8, res := 0#64, res2 := 0#32, out := [] }) ∧
  (∀ (s : State) (nb : BitVec 7), s.inp = [] → 32 < nb.toNat →
    exec (.getUint nb) s = .next { s with status := 2#8, res := 0#64, res2 := 0#32, out := [] })

/-- R74: indices `0 .. nb-1`, with CURSOR as the guard; and the same number as the source's big-endian word. -/
def Obligations.GetInt16MsbReadsFromTheStart : Prop :=
  (∀ nb : BitVec 7, encode (.getInt16Msb nb) = 0x15000000#32 ||| (nb.zeroExtend 32 <<< 15)) ∧
  (∀ (s : State) (nb : BitVec 7), s.inp = [] → nb.toNat ≤ 15 → nb.toNat ≤ s.cur →
    exec (.getInt16Msb nb) s = .next
      { s with status := 0#8, res := BitVec.ofNat 64 (uintAt s 0 nb.toNat), res2 := 0#32, out := [] }) ∧
  (∀ (s : State) (nb : BitVec 7), s.inp = [] → 15 < nb.toNat ∨ s.cur < nb.toNat →
    exec (.getInt16Msb nb) s = .next { s with status := 2#8, res := 0#64, res2 := 0#32, out := [] }) ∧
  (∀ (s : State) (n : Nat), n ≤ 8 → uintAt s 0 n = (Memory.read s.data 0).toNat / 2 ^ (8 - n)) ∧
  (∀ (s : State) (n : Nat), 9 ≤ n → n ≤ 15 →
    uintAt s 0 n = ((Memory.read s.data 0).toNat * 256 + (Memory.read s.data 1).toNat) / 2 ^ (16 - n))

/-- R75. -/
def Obligations.FillWrites : Prop :=
  (encode (.fill .zero) = 0x16000000#32 ∧ encode (.fill .one) = 0x16400000#32 ∧
    encode (.fill .low) = 0x16800000#32 ∧ encode (.fill .high) = 0x16C00000#32) ∧
  (∀ (s : State) (v : BitVal), s.Inv → s.inp = [] → s.cur + s.opa ≤ s.nbits →
    ∃ t, exec (.fill v) s = .next t ∧
      t = { s with data := t.data, cursor := BitVec.ofNat 32 (s.cur + s.opa), status := 0#8, res := 0#64,
                   res2 := 0#32, out := [] } ∧
      BitsWritten s t s.cur s.opa (phys v)) ∧
  (∀ (s : State) (v : BitVal), s.Inv → s.inp = [] → s.nbits < s.cur + s.opa →
    ∃ t, exec (.fill v) s = .next t ∧
      t = { s with data := t.data, cursor := BitVec.ofNat 32 s.nbits, status := 1#8, res := 0#64, res2 := 0#32,
                   out := [] } ∧
      BitsWritten s t s.cur (s.nbits - s.cur) (phys v))

/-- R76. -/
def Obligations.SparePaddingFillsLow : Prop :=
  encode .sparePadding = 0x17000000#32 ∧
  (∀ s : State, s.inp = [] → s.opa < s.cur →
    exec .sparePadding s = .next { s with status := 0#8, res := 0#64, res2 := 0#32, out := [] }) ∧
  (∀ s : State, s.Inv → s.inp = [] → s.cur ≤ s.opa → s.opa < s.nbits →
    ∃ t, exec .sparePadding s = .next t ∧
      t = { s with data := t.data, cursor := BitVec.ofNat 32 (s.opa + 1), status := 0#8, res := 0#64, res2 := 0#32,
                   out := [] } ∧
      BitsWritten s t s.cur (s.opa + 1 - s.cur) (phys .low)) ∧
  (∀ s : State, s.Inv → s.inp = [] → s.cur ≤ s.opa → s.nbits ≤ s.opa →
    ∃ t, exec .sparePadding s = .next t ∧
      t = { s with data := t.data, cursor := BitVec.ofNat 32 s.nbits, status := 1#8, res := 0#64, res2 := 0#32,
                   out := [] } ∧
      BitsWritten s t s.cur (s.nbits - s.cur) (phys .low))

/-- R77: byte `k` is the eight bits from index `CURSOR + 8*k`, and the plain copy when CURSOR is aligned. -/
def Obligations.GetBytesReads : Prop :=
  encode .getBytes = 0x18000000#32 ∧
  (∀ s : State, s.inp = [] → s.cur + 8 * s.opa ≤ s.nbits →
    exec .getBytes s = .next
      { s with cursor := BitVec.ofNat 32 (s.cur + 8 * s.opa), status := 0#8, res := 0#64, res2 := 0#32,
               out := (List.range s.opa).map (fun k => BitVec.ofNat 8 (uintAt s (s.cur + 8 * k) 8)) }) ∧
  (∀ s : State, s.inp = [] → s.cur + 8 * s.opa ≤ s.nbits → s.cur % 8 = 0 →
    ∃ t, exec .getBytes s = .next t ∧ t.out = Memory.readBytes s.data (s.cur / 8) s.opa) ∧
  (∀ s : State, s.inp = [] → s.nbits < s.cur + 8 * s.opa →
    exec .getBytes s = .next { s with status := 1#8, res := 0#64, res2 := 0#32, out := [] })

/-- R78. -/
def Obligations.SetBytesWrites : Prop :=
  encode .setBytes = 0x19000000#32 ∧
  (∀ s : State, s.inp.length = s.opa → s.cur + 8 * s.opa ≤ s.nbits →
    ∃ t, exec .setBytes s = .next t ∧
      t = { s with data := t.data, cursor := BitVec.ofNat 32 (s.cur + 8 * s.opa), status := 0#8, res := 0#64,
                   res2 := 0#32, out := [] } ∧
      BitsWritten s t s.cur (8 * s.opa)
        (fun i => (s.inp.getD ((i - s.cur) / 8) 0#8).getLsbD (7 - (i - s.cur) % 8))) ∧
  (∀ s : State, s.inp.length = s.opa → s.nbits < s.cur + 8 * s.opa →
    exec .setBytes s = .next { s with status := 1#8, res := 0#64, res2 := 0#32, out := [] }) ∧
  (∀ s : State, s.inp.length ≠ s.opa →
    exec .setBytes s = .next { s with status := 5#8, res := 0#64, res2 := 0#32, out := [] })

/-- R79. -/
def Obligations.ReadFieldReads : Prop :=
  (∀ nb : BitVec 7, encode (.readField nb) = 0x1A000000#32 ||| (nb.zeroExtend 32 <<< 15)) ∧
  (∀ (s : State) (nb : BitVec 7), s.Inv → s.inp = [] → nb.toNat ≤ 64 → s.opa + nb.toNat ≤ s.nbits →
    exec (.readField nb) s = .next
      { s with cursor := BitVec.ofNat 32 (s.opa + nb.toNat), status := 0#8,
               res := BitVec.ofNat 64 (uintAt s s.opa nb.toNat), res2 := BitVec.ofNat 32 (s.opa + nb.toNat), out := [] }) ∧
  (∀ (s : State) (nb : BitVec 7), s.Inv → s.inp = [] → nb.toNat ≤ 64 → s.opa ≤ s.nbits →
    s.nbits < s.opa + nb.toNat →
    exec (.readField nb) s = .next
      { s with cursor := BitVec.ofNat 32 s.nbits, status := 1#8, res := 0#64, res2 := s.packet.opa, out := [] }) ∧
  (∀ (s : State) (nb : BitVec 7), s.inp = [] → nb.toNat ≤ 64 → s.nbits < s.opa →
    exec (.readField nb) s = .next { s with status := 1#8, res := 0#64, res2 := s.packet.opa, out := [] }) ∧
  (∀ (s : State) (nb : BitVec 7), s.inp = [] → 64 < nb.toNat →
    exec (.readField nb) s = .next { s with status := 2#8, res := 0#64, res2 := s.packet.opa, out := [] })

/-- R80. -/
def Obligations.WriteFieldWrites : Prop :=
  (∀ nb : BitVec 7, encode (.writeField nb) = 0x1B000000#32 ||| (nb.zeroExtend 32 <<< 15)) ∧
  (∀ (s : State) (nb : BitVec 7), s.Inv → s.inp = [] → nb.toNat ≤ 64 → s.opa + nb.toNat ≤ s.nbits →
    ∃ t, exec (.writeField nb) s = .next t ∧
      t = { s with data := t.data, cursor := BitVec.ofNat 32 (s.opa + nb.toNat), status := 0#8, res := 0#64,
                   res2 := BitVec.ofNat 32 (s.opa + nb.toNat), out := [] } ∧
      BitsWritten s t s.opa nb.toNat (fun i => s.opb.getLsbD (nb.toNat - 1 - (i - s.opa)))) ∧
  (∀ (s : State) (nb : BitVec 7), s.Inv → s.inp = [] → nb.toNat ≤ 64 → s.opa ≤ s.nbits →
    s.nbits < s.opa + nb.toNat →
    ∃ t, exec (.writeField nb) s = .next t ∧
      t = { s with data := t.data, cursor := BitVec.ofNat 32 s.nbits, status := 1#8, res := 0#64,
                   res2 := s.packet.opa, out := [] } ∧
      BitsWritten s t s.opa (s.nbits - s.opa) (fun i => s.opb.getLsbD (nb.toNat - 1 - (i - s.opa)))) ∧
  (∀ (s : State) (nb : BitVec 7), s.inp = [] → nb.toNat ≤ 64 → s.nbits < s.opa →
    exec (.writeField nb) s = .next { s with status := 1#8, res := 0#64, res2 := s.packet.opa, out := [] }) ∧
  (∀ (s : State) (nb : BitVec 7), s.inp = [] → 64 < nb.toNat →
    exec (.writeField nb) s = .next { s with status := 2#8, res := 0#64, res2 := s.packet.opa, out := [] })

/-- R81: digit `k` is written at index `4*k`, most significant bit first; the first bad character ends the command with the
digits before it written. The last three clauses are the digit characters, in either case, and no other byte. -/
def Obligations.UnhexLoadsDigits : Prop :=
  encode .unhex = 0x1C000000#32 ∧
  (∀ s : State, s.Inv → s.inp.length < 2 ^ 32 → (∀ k, k < 2 * s.cap → hexDigit (charAt s.inp k) ≠ none) →
    ∃ t, exec .unhex s = .next t ∧
      t = { s with data := t.data, cursor := BitVec.ofNat 32 s.nbits, status := 0#8, res := 0#64, res2 := 0#32,
                   out := [] } ∧
      BitsWritten s t 0 s.nbits (fun i => ((hexDigit (charAt s.inp (i / 4))).getD 0#4).getLsbD (3 - i % 4))) ∧
  (∀ (s : State) (k : Nat), s.Inv → s.inp.length < 2 ^ 32 → k < 2 * s.cap →
    (∀ j, j < k → hexDigit (charAt s.inp j) ≠ none) → hexDigit (charAt s.inp k) = none →
    ∃ t, exec .unhex s = .next t ∧
      t = { s with data := t.data, cursor := if k = 0 then s.cursor else BitVec.ofNat 32 (4 * k), status := 4#8,
                   res := 0#64, res2 := 0#32, out := [] } ∧
      BitsWritten s t 0 (4 * k) (fun i => ((hexDigit (charAt s.inp (i / 4))).getD 0#4).getLsbD (3 - i % 4))) ∧
  (∀ d : Nat, d < 10 → hexDigit (BitVec.ofNat 8 (0x30 + d)) = some (BitVec.ofNat 4 d)) ∧
  (∀ d : Nat, 10 ≤ d → d < 16 → hexDigit (BitVec.ofNat 8 (0x41 + (d - 10))) = some (BitVec.ofNat 4 d) ∧
    hexDigit (BitVec.ofNat 8 (0x61 + (d - 10))) = some (BitVec.ofNat 4 d)) ∧
  (∀ c : Byte, ¬ (0x30 ≤ c.toNat ∧ c.toNat ≤ 0x39) → ¬ (0x41 ≤ c.toNat ∧ c.toNat ≤ 0x46) →
    ¬ (0x61 ≤ c.toNat ∧ c.toNat ≤ 0x66) → hexDigit c = none)

/-! ### Whole-buffer commands (42_whole_buffer.md) -/

/-- R83. -/
def Obligations.ZeroClears : Prop :=
  encode .zero = 0x20000000#32 ∧
  (∀ s : State, s.inp = [] →
    ∃ t, exec .zero s = .next t ∧
      t = { s with data := t.data, cursor := 0#32, status := 0#8, res := 0#64, res2 := 0#32, out := [] } ∧
      ∀ a, Memory.read t.data a = if a < s.cap then 0x00#8 else Memory.read s.data a)

/-- R84. -/
def Obligations.PackCopiesOut : Prop :=
  encode .pack = 0x21000000#32 ∧
  (∀ s : State, s.inp = [] →
    exec .pack s = .next
      { s with status := 0#8, res := 0#64, res2 := 0#32, out := (List.range s.cap).map (Memory.read s.data) })

/-- R85. -/
def Obligations.UnpackCopiesIn : Prop :=
  encode .unpack = 0x22000000#32 ∧
  (∀ s : State, s.inp.length = s.cap →
    ∃ t, exec .unpack s = .next t ∧
      t = { s with data := t.data, status := 0#8, res := 0#64, res2 := 0#32, out := [] } ∧
      ∀ a, Memory.read t.data a = if a < s.cap then s.inp.getD a 0x00#8 else Memory.read s.data a) ∧
  (∀ s : State, s.inp.length ≠ s.cap →
    exec .unpack s = .next { s with status := 5#8, res := 0#64, res2 := 0#32, out := [] })

/-- R86: the characters of `[0, CURSOR)`, with a space before each group of eight. -/
def Obligations.DisplayRenders : Prop :=
  encode .display = 0x23000000#32 ∧
  (∀ s : State, s.inp = [] →
    ∃ t, exec .display s = .next t ∧
      t = { s with status := 0#8, res := 0#64, res2 := 0#32, out := t.out } ∧
      t.out.length = s.cur + (s.cur + 7) / 8 ∧
      (∀ i, i < s.cur → t.out.getD (i + i / 8 + 1) 0#8 = if s.bitRead i then 0x31#8 else 0x30#8) ∧
      (∀ k, 8 * k < s.cur → t.out.getD (9 * k) 0#8 = 0x20#8))

/-- R87: the leading bits equal to the target, at most CURSOR of them. -/
def Obligations.RunLengthCounts : Prop :=
  (encode (.runLength false) = 0x24000000#32 ∧ encode (.runLength true) = 0x24400000#32 ∧
    decode 0x24800000#32 = .error .valueField ∧ decode 0x24C00000#32 = .error .valueField) ∧
  (∀ (s : State) (target : Bool) (r : Nat), s.inp = [] → r ≤ s.cur → (∀ i, i < r → s.bitRead i = target) →
    (r = s.cur ∨ s.bitRead r ≠ target) →
    exec (.runLength target) s = .next
      { s with status := 0#8, res := BitVec.ofNat 64 r, res2 := 0#32, out := [] })

/-- R88. -/
def Obligations.ShiftLeftMoves : Prop :=
  encode .shiftLeft = 0x25000000#32 ∧
  (∀ s : State, s.inp = [] → s.opa = 0 →
    exec .shiftLeft s = .next { s with status := 0#8, res := 0#64, res2 := 0#32, out := [] }) ∧
  (∀ s : State, s.inp = [] → 0 < s.opa → s.cur ≤ s.opa →
    ∃ t, exec .shiftLeft s = .next t ∧
      t = { s with data := t.data, cursor := 0#32, status := 0#8, res := 0#64, res2 := 0#32, out := [] } ∧
      ∀ a, Memory.read t.data a = if a < s.cap then 0x00#8 else Memory.read s.data a) ∧
  (∀ s : State, s.inp = [] → 0 < s.opa → s.opa < s.cur →
    ∃ t, exec .shiftLeft s = .next t ∧
      t = { s with data := t.data, cursor := BitVec.ofNat 32 (s.cur - s.opa), status := 0#8, res := 0#64,
                   res2 := 0#32, out := [] } ∧
      BitsWritten s t 0 s.nbits (fun j => if j + s.opa < s.nbits then s.bitRead (j + s.opa) else false))

/-! ### Laws over several commands -/

/-- R82: SET_UINT, SETCUR back and GET_UINT give the value modulo `2^nb`. -/
def Obligations.IntegerRoundTrip : Prop :=
  ∀ (s : State) (nb : BitVec 7) (val : BitVec 64), s.Inv → nb.toNat ≤ 32 → s.cur + nb.toNat ≤ s.nbits →
    s.script = [packetOf (.setUint nb) 0#32 val [], packetOf (.readField 0#7) s.cursor 0#64 [],
      packetOf (.getUint nb) 0#32 0#64 []] →
    ∃ t u v, step s = .next t ∧ step t = .next u ∧ step u = .next v ∧ v.status = 0#8 ∧
      v.res.toNat = val.toNat % 2 ^ nb.toNat ∧ v.cur = s.cur + nb.toNat

/-- R82: WRITE_FIELD and READ_FIELD at one external cursor give the value modulo `2^nb`, and RES2 stands after it. -/
def Obligations.FieldRoundTrip : Prop :=
  ∀ (s : State) (nb : BitVec 7) (a : BitVec 32) (val : BitVec 64), s.Inv → nb.toNat ≤ 64 →
    a.toNat + nb.toNat ≤ s.nbits →
    s.script = [packetOf (.writeField nb) a val [], packetOf (.readField nb) a 0#64 []] →
    ∃ t u, step s = .next t ∧ step t = .next u ∧ u.status = 0#8 ∧ u.res.toNat = val.toNat % 2 ^ nb.toNat ∧
      u.res2.toNat = a.toNat + nb.toNat

/-- R84, R85: PACK, then UNPACK of OUT into a newly allocated instance of the same capacity, gives the same storage and
leaves that instance's CURSOR at 0. -/
def Obligations.PackThenUnpackCopiesTheStorage : Prop :=
  ∀ s : State, s.Inv → s.inp = [] →
    ∃ t, exec .pack s = .next t ∧
      ∀ p : Packet, p.inp = t.out →
        exec .unpack { State.allocate s.cap with packet := p } =
          .next { State.allocate s.cap with packet := p, data := s.data }

/-- R88: two shifts are the shift by the sum, as long as the sum is below CURSOR. -/
def Obligations.ShiftLeftComposes : Prop :=
  ∀ (s : State) (a b c : Packet), s.Inv → a.inp = [] → b.inp = [] → c.inp = [] →
    c.opa.toNat = a.opa.toNat + b.opa.toNat → c.opa.toNat < s.cur →
    ∃ t u, exec .shiftLeft { s with packet := a } = .next t ∧ exec .shiftLeft { t with packet := b } = .next u ∧
      exec .shiftLeft { s with packet := c } = .next { u with packet := c }

/-- R61: the effect of each pseudo-instruction, run from the packet it expands to. -/
def Obligations.PseudoInstructionEffects : Prop :=
  (∀ (s : State) (a r : BitVec 32) (p : Packet) (rest : List Packet), Pseudo.expand r (.setcur a) = some p →
    s.script = p :: rest → capacityOk s.cap = true →
    (a.toNat ≤ s.nbits → step s = .next { s with packet := p, script := rest, cursor := a, status := 0#8,
                                                 res := 0#64, res2 := a, out := [] }) ∧
    (s.nbits < a.toNat → step s = .next { s with packet := p, script := rest, status := 1#8, res := 0#64,
                                                 res2 := a, out := [] })) ∧
  (∀ (s : State) (r : BitVec 32) (p : Packet) (rest : List Packet), Pseudo.expand r .getNextBit = some p →
    s.script = p :: rest → s.cur < s.nbits →
    step s = .next { s with packet := p, script := rest, cursor := s.cursor + 1#32, status := 0#8,
                            res := if s.bitRead s.cur then 1#64 else 0#64, res2 := 0#32, out := [] }) ∧
  (∀ (s : State) (p : Packet) (rest : List Packet), Pseudo.expand s.cursor .getBitAtCursor = some p →
    s.script = p :: rest → s.cur < s.nbits →
    step s = .next { s with packet := p, script := rest, status := 0#8,
                            res := if s.bitRead s.cur then 1#64 else 0#64, res2 := 0#32, out := [] }) ∧
  (∀ (s : State) (r : BitVec 32) (val : BitVec 64) (p : Packet) (rest : List Packet),
    Pseudo.expand r (.setByte val) = some p → s.script = p :: rest → s.Inv → s.cur + 8 ≤ s.nbits →
    ∃ t, step s = .next t ∧
      t = { s with packet := p, script := rest, data := t.data, cursor := BitVec.ofNat 32 (s.cur + 8),
                   status := 0#8, res := 0#64, res2 := 0#32, out := [] } ∧
      BitsWritten s t s.cur 8 (fun i => val.getLsbD (7 - (i - s.cur)))) ∧
  (∀ (s : State) (r : BitVec 32) (n : Nat) (p : Packet) (rest : List Packet), Pseudo.expand r (.padTo n) = some p →
    s.script = p :: rest → s.Inv → s.cur < n → n ≤ s.nbits →
    ∃ t, step s = .next t ∧
      t = { s with packet := p, script := rest, data := t.data, cursor := BitVec.ofNat 32 n, status := 0#8,
                   res := 0#64, res2 := 0#32, out := [] } ∧
      BitsWritten s t s.cur (n - s.cur) (phys .low)) ∧
  (∀ (s : State) (r : BitVec 32) (p : Packet) (rest : List Packet), Pseudo.expand r .clear = some p →
    s.script = p :: rest → s.Inv →
    step s = .next { State.allocate s.cap with packet := p, script := rest })
end

