-- ==== Sys2Proof/Laws/Memory.lean ====
section
/-! SUPPORT. The laws of the storage: reads after writes, and that every memory operation keeps the canonical form and the
bound on the listed addresses. They hold of every list, canonical or not, but where `Memory.wf` is named. -/

namespace Sys2Proof.Machine

@[simp] theorem Memory.read_nil (a : Nat) : Memory.read [] a = Memory.unlisted := rfl

theorem Memory.read_cons (k : Nat) (b : Byte) (m : List Host.Cell) (a : Nat) :
    Memory.read ((k, b) :: m) a = if k = a then b else Memory.read m a := rfl

theorem Memory.read_erase (m : List Host.Cell) (a x : Nat) :
    Memory.read (Memory.erase m a) x = if x = a then Memory.unlisted else Memory.read m x := by
  unfold Memory.erase
  induction m with
  | nil => simp
  | cons c m ih =>
    obtain ⟨k, b⟩ := c
    by_cases hk : k = a
    · subst hk
      rw [List.filter_cons_of_neg (by simp), ih, Memory.read_cons]
      by_cases hx : x = k
      · simp [hx]
      · simp [hx, Ne.symm hx]
    · rw [List.filter_cons_of_pos (by simp [hk]), Memory.read_cons, ih, Memory.read_cons]
      by_cases hx : x = a
      · subst hx; simp [hk]
      · simp [hx]

theorem Memory.read_insert (m : List Host.Cell) (a x : Nat) (b : Byte) (h : ∀ c ∈ m, c.1 ≠ a) :
    Memory.read (Memory.insert a b m) x = if x = a then b else Memory.read m x := by
  induction m with
  | nil =>
    by_cases hx : x = a
    · simp [Memory.insert, Memory.read_cons, hx]
    · simp [Memory.insert, Memory.read_cons, hx, Ne.symm hx]
  | cons c m ih =>
    obtain ⟨k, d⟩ := c
    have hk : k ≠ a := h (k, d) (by simp)
    have hm := ih fun c hc => h c (by simp [hc])
    by_cases hlt : a < k
    · by_cases hx : x = a
      · subst hx; simp [Memory.insert, hlt, Memory.read_cons]
      · simp [Memory.insert, hlt, Memory.read_cons, hx, Ne.symm hx]
    · by_cases hx : x = a
      · subst hx; simp [Memory.insert, hlt, Memory.read_cons, hm, hk]
      · simp [Memory.insert, hlt, Memory.read_cons, hm, hx]

theorem Memory.mem_erase {m : List Host.Cell} {a : Nat} {c : Host.Cell} :
    c ∈ Memory.erase m a ↔ c ∈ m ∧ c.1 ≠ a := by
  simp [Memory.erase]

/-- A read after a write gives the byte written at its address and what stood there at every other. -/
theorem Memory.read_write (m : List Host.Cell) (a x : Nat) (b : Byte) :
    Memory.read (Memory.write m a b) x = if x = a then b else Memory.read m x := by
  unfold Memory.write
  split
  · next hb => rw [Memory.read_erase, hb]
  · rw [Memory.read_insert _ _ _ _ fun c hc => (Memory.mem_erase.1 hc).2, Memory.read_erase]
    by_cases hx : x = a <;> simp [hx]

theorem Memory.mem_insert {m : List Host.Cell} {a : Nat} {b : Byte} {c : Host.Cell} :
    c ∈ Memory.insert a b m ↔ c = (a, b) ∨ c ∈ m := by
  induction m with
  | nil => simp [Memory.insert]
  | cons d m ih =>
    unfold Memory.insert
    split
    · simp
    · simp only [List.mem_cons, ih]; tauto

theorem Memory.insert_sorted {m : List Host.Cell} {a : Nat} {b : Byte}
    (hs : m.Pairwise (fun c d => c.1 < d.1)) (h : ∀ c ∈ m, c.1 ≠ a) :
    (Memory.insert a b m).Pairwise (fun c d => c.1 < d.1) := by
  induction m with
  | nil => simp [Memory.insert]
  | cons d m ih =>
    obtain ⟨hd, hm⟩ := List.pairwise_cons.1 hs
    unfold Memory.insert
    split
    · next hlt =>
      refine List.pairwise_cons.2 ⟨fun c hc => ?_, hs⟩
      rcases List.mem_cons.1 hc with rfl | hc
      · exact hlt
      · exact lt_trans hlt (hd c hc)
    · next hlt =>
      refine List.pairwise_cons.2 ⟨fun c hc => ?_, ih hm fun c hc => h c (by simp [hc])⟩
      rcases Memory.mem_insert.1 hc with rfl | hc
      · have := h d (by simp); simp only; omega
      · exact hd c hc

/-- A write keeps the canonical form. -/
theorem Memory.write_wf {m : List Host.Cell} (h : Memory.wf m) (a : Nat) (b : Byte) :
    Memory.wf (Memory.write m a b) := by
  obtain ⟨hs, hz⟩ := h
  have he : (Memory.erase m a).Pairwise (fun c d => c.1 < d.1) := hs.filter _
  unfold Memory.write
  split
  · exact ⟨he, fun c hc => hz c (Memory.mem_erase.1 hc).1⟩
  · next hb =>
    refine ⟨Memory.insert_sorted he fun c hc => (Memory.mem_erase.1 hc).2, fun c hc => ?_⟩
    rcases Memory.mem_insert.1 hc with rfl | hc
    · exact hb
    · exact hz c (Memory.mem_erase.1 hc).1

/-- A write inside a bound keeps every listed address inside it. -/
theorem Memory.write_bound {m : List Host.Cell} {n : Nat} (h : ∀ c ∈ m, c.1 < n) {a : Nat} (ha : a < n) (b : Byte) :
    ∀ c ∈ Memory.write m a b, c.1 < n := by
  intro c hc
  unfold Memory.write at hc
  split at hc
  · exact h c (Memory.mem_erase.1 hc).1
  · rcases Memory.mem_insert.1 hc with rfl | hc
    · exact ha
    · exact h c (Memory.mem_erase.1 hc).1

/-- A run of bytes reads back where it was written, and every other byte keeps its value. -/
theorem Memory.read_writeBytes (bs : List Byte) (m : List Host.Cell) (a x : Nat) :
    Memory.read (Memory.writeBytes m a bs) x
      = if a ≤ x ∧ x < a + bs.length then bs.getD (x - a) Memory.unlisted else Memory.read m x := by
  induction bs generalizing m a with
  | nil => simp [Memory.writeBytes]
  | cons b bs ih =>
    rw [Memory.writeBytes, ih, Memory.read_write]
    by_cases hx : x = a
    · subst hx; simp
    · by_cases hr : a + 1 ≤ x ∧ x < a + 1 + bs.length
      · obtain ⟨k, rfl⟩ : ∃ k, x = a + 1 + k := ⟨x - (a + 1), by omega⟩
        have h1 : a + 1 + k - (a + 1) = k := by omega
        have h2 : a + 1 + k - a = k + 1 := by omega
        rw [if_pos hr, if_pos (by simp only [List.length_cons]; omega), h1, h2, List.getD_cons_succ]
      · rw [if_neg hr, if_neg hx, if_neg (by simp only [List.length_cons]; omega)]

/-- A run of bytes keeps the canonical form. -/
theorem Memory.writeBytes_wf (bs : List Byte) {m : List Host.Cell} (h : Memory.wf m) (a : Nat) :
    Memory.wf (Memory.writeBytes m a bs) := by
  induction bs generalizing m a with
  | nil => exact h
  | cons b bs ih => exact ih (Memory.write_wf h a b) (a + 1)

/-- A run of bytes inside a bound keeps every listed address inside it. -/
theorem Memory.writeBytes_bound (bs : List Byte) {m : List Host.Cell} {n : Nat} (h : ∀ c ∈ m, c.1 < n) {a : Nat}
    (ha : a + bs.length ≤ n) : ∀ c ∈ Memory.writeBytes m a bs, c.1 < n := by
  induction bs generalizing m a with
  | nil => exact h
  | cons b bs ih =>
    simp only [List.length_cons] at ha
    exact ih (Memory.write_bound h (by omega) b) (by omega)

/-- Two canonical storages that read alike everywhere are one list. -/
theorem Memory.wf_ext {m n : List Host.Cell} (hm : Memory.wf m) (hn : Memory.wf n)
    (h : ∀ a, Memory.read m a = Memory.read n a) : m = n := by
  have low : ∀ {l : List Host.Cell} {k : Nat}, (∀ c ∈ l, k < c.1) → ∀ a ≤ k, Memory.read l a = Memory.unlisted := by
    intro l k hl a ha
    induction l with
    | nil => rfl
    | cons c l ih =>
      have := hl c (by simp)
      rw [show c = (c.1, c.2) from rfl, Memory.read_cons, if_neg (by omega), ih fun d hd => hl d (by simp [hd])]
  induction m generalizing n with
  | nil =>
    cases n with
    | nil => rfl
    | cons d n =>
      have := h d.1
      rw [Memory.read_nil, show d = (d.1, d.2) from rfl, Memory.read_cons, if_pos rfl] at this
      exact absurd this.symm (hn.2 d (by simp))
  | cons c m ih =>
    cases n with
    | nil =>
      have := h c.1
      rw [Memory.read_nil, show c = (c.1, c.2) from rfl, Memory.read_cons, if_pos rfl] at this
      exact absurd this (hm.2 c (by simp))
    | cons d n =>
      obtain ⟨k, b⟩ := c
      obtain ⟨l, e⟩ := d
      obtain ⟨hmh, hmt⟩ := List.pairwise_cons.1 hm.1
      obtain ⟨hnh, hnt⟩ := List.pairwise_cons.1 hn.1
      have hkl : k = l := by
        rcases lt_trichotomy k l with hlt | rfl | hlt
        · have := h k
          rw [Memory.read_cons, if_pos rfl, Memory.read_cons, if_neg (by omega),
            low (k := l) hnh k (by omega)] at this
          exact absurd this (hm.2 (k, b) (by simp))
        · rfl
        · have := h l
          rw [Memory.read_cons, if_neg (by omega), low (k := k) hmh l (by omega), Memory.read_cons,
            if_pos rfl] at this
          exact absurd this.symm (hn.2 (l, e) (by simp))
      subst hkl
      have hbe : b = e := by have := h k; simpa [Memory.read_cons] using this
      subst hbe
      congr 1
      refine ih ⟨hmt, fun c hc => hm.2 c (by simp [hc])⟩ ⟨hnt, fun c hc => hn.2 c (by simp [hc])⟩ fun a => ?_
      rcases Nat.lt_or_ge k a with ha | ha
      · have := h a
        rwa [Memory.read_cons, if_neg (by omega), Memory.read_cons, if_neg (by omega)] at this
      · rw [low (k := k) hmh a ha, low (k := k) hnh a ha]

end Sys2Proof.Machine
end

