-- ==== Sys2Proof/Laws/State.lean ====
section
/-! SUPPORT. One lemma for each field under each update of the state, and for each reading of a field (NBITS, OPA, ...) under
the updates that keep it. -/

namespace Sys2Proof.Machine

@[simp] theorem State.setCur_cap (s : State) (n : Nat) : (s.setCur n).cap = s.cap := rfl
@[simp] theorem State.setCur_data (s : State) (n : Nat) : (s.setCur n).data = s.data := rfl
@[simp] theorem State.setCur_cursor (s : State) (n : Nat) : (s.setCur n).cursor = BitVec.ofNat 32 n := rfl
@[simp] theorem State.setCur_status (s : State) (n : Nat) : (s.setCur n).status = s.status := rfl
@[simp] theorem State.setCur_res (s : State) (n : Nat) : (s.setCur n).res = s.res := rfl
@[simp] theorem State.setCur_res2 (s : State) (n : Nat) : (s.setCur n).res2 = s.res2 := rfl
@[simp] theorem State.setCur_out (s : State) (n : Nat) : (s.setCur n).out = s.out := rfl
@[simp] theorem State.setCur_packet (s : State) (n : Nat) : (s.setCur n).packet = s.packet := rfl
@[simp] theorem State.setCur_script (s : State) (n : Nat) : (s.setCur n).script = s.script := rfl
@[simp] theorem State.setCur_nbits (s : State) (n : Nat) : (s.setCur n).nbits = s.nbits := rfl
@[simp] theorem State.setCur_opa (s : State) (n : Nat) : (s.setCur n).opa = s.opa := rfl
@[simp] theorem State.setCur_opb (s : State) (n : Nat) : (s.setCur n).opb = s.opb := rfl
@[simp] theorem State.setCur_inp (s : State) (n : Nat) : (s.setCur n).inp = s.inp := rfl
@[simp] theorem State.setCur_bitRead (s : State) (n : Nat) (j : Nat) : (s.setCur n).bitRead j = s.bitRead j := rfl

@[simp] theorem State.bitWrite_cap (s : State) (i : Nat) (b : Bool) : (s.bitWrite i b).cap = s.cap := rfl
@[simp] theorem State.bitWrite_cursor (s : State) (i : Nat) (b : Bool) : (s.bitWrite i b).cursor = s.cursor := rfl
@[simp] theorem State.bitWrite_status (s : State) (i : Nat) (b : Bool) : (s.bitWrite i b).status = s.status := rfl
@[simp] theorem State.bitWrite_res (s : State) (i : Nat) (b : Bool) : (s.bitWrite i b).res = s.res := rfl
@[simp] theorem State.bitWrite_res2 (s : State) (i : Nat) (b : Bool) : (s.bitWrite i b).res2 = s.res2 := rfl
@[simp] theorem State.bitWrite_out (s : State) (i : Nat) (b : Bool) : (s.bitWrite i b).out = s.out := rfl
@[simp] theorem State.bitWrite_packet (s : State) (i : Nat) (b : Bool) : (s.bitWrite i b).packet = s.packet := rfl
@[simp] theorem State.bitWrite_script (s : State) (i : Nat) (b : Bool) : (s.bitWrite i b).script = s.script := rfl
@[simp] theorem State.bitWrite_nbits (s : State) (i : Nat) (b : Bool) : (s.bitWrite i b).nbits = s.nbits := rfl
@[simp] theorem State.bitWrite_cur (s : State) (i : Nat) (b : Bool) : (s.bitWrite i b).cur = s.cur := rfl
@[simp] theorem State.bitWrite_opa (s : State) (i : Nat) (b : Bool) : (s.bitWrite i b).opa = s.opa := rfl
@[simp] theorem State.bitWrite_opb (s : State) (i : Nat) (b : Bool) : (s.bitWrite i b).opb = s.opb := rfl
@[simp] theorem State.bitWrite_inp (s : State) (i : Nat) (b : Bool) : (s.bitWrite i b).inp = s.inp := rfl

@[simp] theorem State.respond_cap (s : State) (st : Status) (r : Response) : (s.respond st r).cap = s.cap := rfl
@[simp] theorem State.respond_data (s : State) (st : Status) (r : Response) : (s.respond st r).data = s.data := rfl
@[simp] theorem State.respond_cursor (s : State) (st : Status) (r : Response) : (s.respond st r).cursor = s.cursor := rfl
@[simp] theorem State.respond_status (s : State) (st : Status) (r : Response) : (s.respond st r).status = st.code := rfl
@[simp] theorem State.respond_res (s : State) (st : Status) (r : Response) : (s.respond st r).res = r.res := rfl
@[simp] theorem State.respond_res2 (s : State) (st : Status) (r : Response) : (s.respond st r).res2 = r.res2 := rfl
@[simp] theorem State.respond_out (s : State) (st : Status) (r : Response) : (s.respond st r).out = r.out := rfl
@[simp] theorem State.respond_packet (s : State) (st : Status) (r : Response) : (s.respond st r).packet = s.packet := rfl
@[simp] theorem State.respond_script (s : State) (st : Status) (r : Response) : (s.respond st r).script = s.script := rfl
@[simp] theorem State.respond_nbits (s : State) (st : Status) (r : Response) : (s.respond st r).nbits = s.nbits := rfl
@[simp] theorem State.respond_cur (s : State) (st : Status) (r : Response) : (s.respond st r).cur = s.cur := rfl
@[simp] theorem State.respond_opa (s : State) (st : Status) (r : Response) : (s.respond st r).opa = s.opa := rfl
@[simp] theorem State.respond_opb (s : State) (st : Status) (r : Response) : (s.respond st r).opb = s.opb := rfl
@[simp] theorem State.respond_inp (s : State) (st : Status) (r : Response) : (s.respond st r).inp = s.inp := rfl
@[simp] theorem State.respond_bitRead (s : State) (st : Status) (r : Response) (j : Nat) : (s.respond st r).bitRead j = s.bitRead j := rfl

@[simp] theorem State.present_cap (s : State) (p : Packet) (rest : List Packet) : (s.present p rest).cap = s.cap := rfl
@[simp] theorem State.present_data (s : State) (p : Packet) (rest : List Packet) : (s.present p rest).data = s.data := rfl
@[simp] theorem State.present_cursor (s : State) (p : Packet) (rest : List Packet) : (s.present p rest).cursor = s.cursor := rfl
@[simp] theorem State.present_status (s : State) (p : Packet) (rest : List Packet) : (s.present p rest).status = s.status := rfl
@[simp] theorem State.present_res (s : State) (p : Packet) (rest : List Packet) : (s.present p rest).res = s.res := rfl
@[simp] theorem State.present_res2 (s : State) (p : Packet) (rest : List Packet) : (s.present p rest).res2 = s.res2 := rfl
@[simp] theorem State.present_out (s : State) (p : Packet) (rest : List Packet) : (s.present p rest).out = s.out := rfl
@[simp] theorem State.present_packet (s : State) (p : Packet) (rest : List Packet) : (s.present p rest).packet = p := rfl
@[simp] theorem State.present_script (s : State) (p : Packet) (rest : List Packet) : (s.present p rest).script = rest := rfl
@[simp] theorem State.present_nbits (s : State) (p : Packet) (rest : List Packet) : (s.present p rest).nbits = s.nbits := rfl
@[simp] theorem State.present_cur (s : State) (p : Packet) (rest : List Packet) : (s.present p rest).cur = s.cur := rfl
@[simp] theorem State.present_bitRead (s : State) (p : Packet) (rest : List Packet) (j : Nat) : (s.present p rest).bitRead j = s.bitRead j := rfl

@[simp] theorem State.clear_cap (s : State) : (s.clear).cap = s.cap := rfl
@[simp] theorem State.clear_cursor (s : State) : (s.clear).cursor = 0#32 := rfl
@[simp] theorem State.clear_status (s : State) : (s.clear).status = s.status := rfl
@[simp] theorem State.clear_res (s : State) : (s.clear).res = s.res := rfl
@[simp] theorem State.clear_res2 (s : State) : (s.clear).res2 = s.res2 := rfl
@[simp] theorem State.clear_out (s : State) : (s.clear).out = s.out := rfl
@[simp] theorem State.clear_packet (s : State) : (s.clear).packet = s.packet := rfl
@[simp] theorem State.clear_script (s : State) : (s.clear).script = s.script := rfl
@[simp] theorem State.clear_nbits (s : State) : (s.clear).nbits = s.nbits := rfl
@[simp] theorem State.clear_opa (s : State) : (s.clear).opa = s.opa := rfl
@[simp] theorem State.clear_opb (s : State) : (s.clear).opb = s.opb := rfl
@[simp] theorem State.clear_inp (s : State) : (s.clear).inp = s.inp := rfl

@[simp] theorem State.illegal_eq (s : State) : s.illegal = s.respond .illegalCommand {} := rfl

@[simp] theorem State.idle_eq (s : State) : s.idle = s := rfl

/-- CURSOR reads back as written when the value fits its 32 bits. -/
theorem State.setCur_cur (s : State) {n : Nat} (h : n < 2 ^ 32) : (s.setCur n).cur = n := by
  simp only [State.cur, State.setCur_cursor, BitVec.toNat_ofNat, Nat.mod_eq_of_lt h]

/-- Writing CURSOR twice keeps the second value. -/
@[simp] theorem State.setCur_setCur (s : State) (m n : Nat) : (s.setCur m).setCur n = s.setCur n := rfl

/-- Writing CURSOR with its own value changes nothing. -/
@[simp] theorem State.setCur_self (s : State) : s.setCur s.cur = s := by
  simp [State.setCur, State.cur]

/-- A bit write and a cursor write do not see each other. -/
theorem State.setCur_bitWrite (s : State) (n i : Nat) (b : Bool) :
    (s.setCur n).bitWrite i b = (s.bitWrite i b).setCur n := rfl

end Sys2Proof.Machine
end

