-- ==== Sys2Proof/Laws/Bits.lean ====
section
/-! SUPPORT. The laws of single bits and of unchecked runs of bits over the storage (20_memory.md rules R28 to R30). -/

namespace Sys2Proof.Machine

/-- Writing one numeric bit of a byte leaves the other seven (R12). -/
theorem withBit_getLsbD (x : Byte) {p : Nat} (hp : p < 8) (b : Bool) (q : Nat) :
    (withBit x p b).getLsbD q = if q = p then b else x.getLsbD q := by
  unfold withBit
  rcases Nat.lt_or_ge q 8 with hq | hq
  · cases b <;> by_cases h : q = p
    · subst h; simp [hq]
    · rcases Nat.lt_or_gt_of_ne h with hl | hl
      · simp [hq, h, hl]
      · simp [hq, h, Nat.not_lt.2 (Nat.le_of_lt hl)]; omega
    · subst h; simp [hq]
    · rcases Nat.lt_or_gt_of_ne h with hl | hl
      · simp [hq, h, hl]
      · simp [hq, h, Nat.not_lt.2 (Nat.le_of_lt hl)]; omega
  · have h : q ≠ p := by omega
    cases b <;> simp [h, BitVec.getLsbD_of_ge _ _ hq]

theorem posOf_lt (i : Nat) : posOf i < 8 := by unfold posOf; omega

/-- Byte and numeric bit together name the bit index (R28). -/
theorem index_ext {i j : Nat} (hb : byteOf i = byteOf j) (hp : posOf i = posOf j) : i = j := by
  unfold byteOf at hb; unfold posOf at hp; omega

/-- A bit reads back as written and no other bit changes (R12, R45). -/
theorem State.bitRead_bitWrite (s : State) (i j : Nat) (b : Bool) :
    (s.bitWrite i b).bitRead j = if j = i then b else s.bitRead j := by
  simp only [State.bitRead, State.bitWrite, Memory.read_write]
  by_cases hb : byteOf j = byteOf i
  · rw [if_pos hb, withBit_getLsbD _ (posOf_lt i), hb]
    by_cases hp : posOf j = posOf i
    · simp [index_ext hb hp]
    · rw [if_neg hp, if_neg (fun h => hp (by rw [h]))]
  · rw [if_neg hb, if_neg (fun h => hb (by rw [h]))]

/-- A bit write changes no byte but the one that holds the bit. -/
theorem State.read_bitWrite (s : State) (i : Nat) (b : Bool) {a : Nat} (h : a ≠ byteOf i) :
    Memory.read (s.bitWrite i b).data a = Memory.read s.data a := by
  simp only [State.bitWrite, Memory.read_write, if_neg h]

/-- A byte is its eight bits, most significant first (R28). -/
theorem State.read_getLsbD (s : State) (a : Nat) {q : Nat} (hq : q < 8) :
    (Memory.read s.data a).getLsbD q = s.bitRead (8 * a + (7 - q)) := by
  have h1 : byteOf (8 * a + (7 - q)) = a := by unfold byteOf; omega
  have h2 : posOf (8 * a + (7 - q)) = q := by unfold posOf; omega
  simp only [State.bitRead, h1, h2]

/-- Storages with the same bits have the same bytes. -/
theorem State.read_congr {s t : State} {a : Nat} (h : ∀ i, byteOf i = a → t.bitRead i = s.bitRead i) :
    Memory.read t.data a = Memory.read s.data a := by
  apply BitVec.eq_of_getLsbD_eq
  intro q hq
  rw [State.read_getLsbD t a hq, State.read_getLsbD s a hq]
  exact h _ (by unfold byteOf; omega)

/-- What `writeBits` leaves alone: everything but the storage. -/
theorem State.writeBits_eq (s : State) (i : Nat) (bits : List Bool) :
    s.writeBits i bits = { s with data := (s.writeBits i bits).data } := by
  induction bits generalizing s i with
  | nil => rfl
  | cons b bs ih => rw [State.writeBits, ih]; rfl

/-- A run of bits reads back where it was written, and every other bit keeps its value. -/
theorem State.bitRead_writeBits (s : State) (i : Nat) (bits : List Bool) (j : Nat) :
    (s.writeBits i bits).bitRead j
      = if i ≤ j ∧ j < i + bits.length then bits.getD (j - i) false else s.bitRead j := by
  induction bits generalizing s i with
  | nil => rw [if_neg (by simp only [List.length_nil]; omega)]; rfl
  | cons b bs ih =>
    rw [State.writeBits, ih, State.bitRead_bitWrite]
    by_cases hx : j = i
    · subst hx; simp
    · by_cases hr : i + 1 ≤ j ∧ j < i + 1 + bs.length
      · obtain ⟨k, rfl⟩ : ∃ k, j = i + 1 + k := ⟨j - (i + 1), by omega⟩
        have h1 : i + 1 + k - (i + 1) = k := by omega
        have h2 : i + 1 + k - i = k + 1 := by omega
        rw [if_pos hr, if_pos (by simp only [List.length_cons]; omega), h1, h2, List.getD_cons_succ]
      · rw [if_neg hr, if_neg hx, if_neg (by simp only [List.length_cons]; omega)]

/-- A bit write keeps the canonical form. -/
theorem State.bitWrite_wf {s : State} (h : Memory.wf s.data) (i : Nat) (b : Bool) :
    Memory.wf (s.bitWrite i b).data := Memory.write_wf h _ _

/-- A bit write below `NBITS` keeps the listed addresses below the capacity. -/
theorem State.bitWrite_bound {s : State} (h : ∀ c ∈ s.data, c.1 < s.cap) {i : Nat} (hi : i < s.nbits) (b : Bool) :
    ∀ c ∈ (s.bitWrite i b).data, c.1 < s.cap :=
  Memory.write_bound h (by unfold State.nbits at hi; unfold byteOf; omega) _

/-- A run of bits keeps the canonical form. -/
theorem State.writeBits_wf {s : State} (h : Memory.wf s.data) (i : Nat) (bits : List Bool) :
    Memory.wf (s.writeBits i bits).data := by
  induction bits generalizing s i with
  | nil => exact h
  | cons b bs ih => exact ih (State.bitWrite_wf h i b) (i + 1)

/-- A run of bits below `NBITS` keeps the listed addresses below the capacity. -/
theorem State.writeBits_bound {s : State} (h : ∀ c ∈ s.data, c.1 < s.cap) {i : Nat} (bits : List Bool)
    (hi : i + bits.length ≤ s.nbits) : ∀ c ∈ (s.writeBits i bits).data, c.1 < s.cap := by
  induction bits generalizing s i with
  | nil => exact h
  | cons b bs ih =>
    simp only [List.length_cons] at hi
    have := ih (s := s.bitWrite i b) (i := i + 1) (State.bitWrite_bound h (by omega) b)
      (by simp only [State.bitWrite_nbits]; omega)
    simpa [State.writeBits] using this

@[simp] theorem State.length_readBits (s : State) (i n : Nat) : (s.readBits i n).length = n := by
  simp [State.readBits]

@[simp] theorem length_bitsOfByte (b : Byte) : (bitsOfByte b).length = 8 := by simp [bitsOfByte]

theorem getD_bitsOfByte (b : Byte) {j : Nat} (h : j < 8) : (bitsOfByte b).getD j false = b.getLsbD (7 - j) := by
  simp [bitsOfByte, List.getD_eq_getElem?_getD, h]

@[simp] theorem length_bitsOfBytes (bs : List Byte) : (bs.flatMap bitsOfByte).length = 8 * bs.length := by
  induction bs with
  | nil => rfl
  | cons b bs ih => rw [List.flatMap_cons, List.length_append, ih, length_bitsOfByte, List.length_cons]; omega

/-- Bit `j` of a byte stream is bit `7 - j mod 8` of its byte `j div 8` (R30). -/
theorem getD_bitsOfBytes (bs : List Byte) (j : Nat) :
    (bs.flatMap bitsOfByte).getD j false = (bs.getD (j / 8) 0#8).getLsbD (7 - j % 8) := by
  induction bs generalizing j with
  | nil => simp
  | cons b bs ih =>
    rw [List.flatMap_cons]
    rcases Nat.lt_or_ge j 8 with hj | hj
    · rw [List.getD_append _ _ _ _ (by simpa using hj), getD_bitsOfByte b hj,
        Nat.div_eq_of_lt hj, Nat.mod_eq_of_lt hj, List.getD_cons_zero]
    · rw [List.getD_append_right _ _ _ _ (by simpa using hj), length_bitsOfByte, ih]
      have h1 : j / 8 = (j - 8) / 8 + 1 := by omega
      have h2 : j % 8 = (j - 8) % 8 := by omega
      rw [h1, h2, List.getD_cons_succ]

end Sys2Proof.Machine
end

