-- ==== Sys2Proof/Laws/Decode.lean ====
section
/-! SUPPORT. The fields of a command word (30_encoding.md rule R49): a word is its four fields, and a bit value is its code. -/

namespace Sys2Proof

@[simp] theorem BitVal.code_ofCode (c : BitVec 2) : (BitVal.ofCode c).code = c := by revert c; decide

@[simp] theorem BitVal.ofCode_code (v : BitVal) : BitVal.ofCode v.code = v := by cases v <;> decide

/-- A word is put together from its fields. -/
theorem word_eq_fields (w : CmdWord) :
    w = assembleWord (fieldOpc w) (fieldV w) (fieldNb w) ||| (fieldRsv w).zeroExtend 32 := by
  apply BitVec.eq_of_getLsbD_eq
  intro i hi
  simp only [assembleWord, fieldOpc, fieldV, fieldNb, fieldRsv, BitVec.getLsbD_or, BitVec.getLsbD_append,
    BitVec.getLsbD_extractLsb', BitVec.getLsbD_setWidth]
  have h0 : (0#15).getLsbD i = false := by simp
  rw [h0]
  by_cases h1 : i < 15
  · simp [h1, hi]
  · by_cases h2 : i < 22
    · simp [h1, (by omega : i - 15 < 7), (by omega : 15 + (i - 15) = i)]
    · have h4 : ¬ i - 15 < 7 := by omega
      by_cases h3 : i < 24
      · have h5 : i - 15 - 7 < 2 := by omega
        rw [if_neg h1, if_neg h4, if_pos h5, (by omega : 22 + (i - 15 - 7) = i)]
        simp [h1]; omega
      · have h5 : ¬ i - 15 - 7 < 2 := by omega
        rw [if_neg h1, if_neg h4, if_neg h5, (by omega : 24 + (i - 15 - 7 - 2) = i)]
        simp [h1]; omega

/-- A word without reserved bits is put together from its other three fields. -/
theorem word_eq_assembleWord {w : CmdWord} (h : fieldRsv w = 0#15) :
    w = assembleWord (fieldOpc w) (fieldV w) (fieldNb w) := by
  have := word_eq_fields w
  rw [h] at this
  simpa using this

end Sys2Proof
end

