-- ==== Sys2Proof/Laws/Flow.lean ====
section
/-! SUPPORT. What the shared command bodies do, said once: the checked accesses at the cursor (00_scope.md rule R13), the
bit-serial writer and reader with their failure at `NBITS` (41_sequential.md rule R68), and the value of a run of bits
(20_memory.md rule R29). -/

namespace Sys2Proof.Machine

@[simp] theorem Flow.bind_done {α β : Type} (a : α) (s : State) (k : α → State → Flow β) :
    (Flow.done a s).bind k = k a s := rfl

@[simp] theorem Flow.bind_raised {α β : Type} (st : Status) (s : State) (k : α → State → Flow β) :
    (Flow.raised st s : Flow α).bind k = .raised st s := rfl

@[simp] theorem finish_done (r2 : BitVec 32) (r : Response) (s : State) : finish r2 (.done r s) = s.respond .ok r := rfl

@[simp] theorem finish_raised (r2 : BitVec 32) (st : Status) (s : State) :
    finish r2 (.raised st s) = s.respond st { res2 := r2 } := rfl

/-- A command with its framing right runs its body. -/
theorem runCommand_framed (r2 : BitVec 32) (body : State → Flow Response) (s : State) {framing : Bool}
    (h : framing = true) : runCommand framing r2 body s = .next (finish r2 (body s)) := by
  subst h; rfl

/-- A command with its framing wrong is illegal. -/
theorem runCommand_illegal (r2 : BitVec 32) (body : State → Flow Response) (s : State) {framing : Bool}
    (h : framing = false) : runCommand framing r2 body s = .next (s.respond .illegalCommand {}) := by
  subst h; rfl

/-- `GetAt` inside the capacity. -/
theorem getAt_lt {i : Nat} {s : State} (h : i < s.nbits) : getAt i s = .done (s.bitRead i) s := by
  rw [getAt, if_neg (by omega)]

/-- `GetAt` outside the capacity. -/
theorem getAt_ge {i : Nat} {s : State} (h : s.nbits ≤ i) : getAt i s = .raised .outOfRange s := by
  rw [getAt, if_pos h]

/-- `SetAt` inside the capacity. -/
theorem setAt_lt {i : Nat} {v : BitVal} {s : State} (h : i < s.nbits) :
    setAt i v s = .done () (s.bitWrite i (phys v i)) := by
  rw [setAt, if_neg (by omega)]

/-- `SetAt` outside the capacity. -/
theorem setAt_ge {i : Nat} {v : BitVal} {s : State} (h : s.nbits ≤ i) : setAt i v s = .raised .outOfRange s := by
  rw [setAt, if_pos h]

/-- `SetNext` below `NBITS` writes one bit and advances. -/
theorem setNext_lt {v : BitVal} {s : State} (h : s.cur < s.nbits) :
    setNext v s = .done () ((s.bitWrite s.cur (phys v s.cur)).setCur (s.cur + 1)) := by
  rw [setNext, setAt_lt h]; rfl

/-- `SetNext` at `NBITS` raises with nothing changed. -/
theorem setNext_ge {v : BitVal} {s : State} (h : s.nbits ≤ s.cur) : setNext v s = .raised .outOfRange s := by
  rw [setNext, setAt_ge h]; rfl

/-- A read at the cursor below `NBITS` advances it. -/
theorem getNext_lt {s : State} (h : s.cur < s.nbits) :
    getNext s = .done (s.bitRead s.cur) (s.setCur (s.cur + 1)) := by
  rw [getNext, getAt_lt h]; rfl

/-- A read at the cursor at `NBITS` raises with nothing changed. -/
theorem getNext_ge {s : State} (h : s.nbits ≤ s.cur) : getNext s = .raised .outOfRange s := by
  rw [getNext, getAt_ge h]; rfl

/-- The physical bits of values written from index `i` up (R34). -/
def physBits : Nat → List BitVal → List Bool
  | _, [] => []
  | i, v :: vs => phys v i :: physBits (i + 1) vs

@[simp] theorem length_physBits (i : Nat) (vs : List BitVal) : (physBits i vs).length = vs.length := by
  induction vs generalizing i with
  | nil => rfl
  | cons v vs ih => simp [physBits, ih]

theorem getD_physBits (i k : Nat) (vs : List BitVal) (h : k < vs.length) :
    (physBits i vs).getD k false = phys (vs.getD k .zero) (i + k) := by
  induction vs generalizing i k with
  | nil => simp at h
  | cons v vs ih =>
    cases k with
    | zero => simp [physBits]
    | succ k =>
      rw [physBits, List.getD_cons_succ, List.getD_cons_succ, ih (i + 1) k (by simpa using h)]
      congr 1; omega

/-- The bit-serial writer when all its bits fit: they stand from the cursor on, and CURSOR stands after them. -/
theorem setNextAll_fits (vs : List BitVal) (s : State) (hn : s.nbits < 2 ^ 32) (h : s.cur + vs.length ≤ s.nbits) :
    setNextAll vs s = .done () ((s.writeBits s.cur (physBits s.cur vs)).setCur (s.cur + vs.length)) := by
  induction vs generalizing s with
  | nil => simp [setNextAll, physBits, State.writeBits]
  | cons v vs ih =>
    simp only [List.length_cons] at h
    have hc : ((s.bitWrite s.cur (phys v s.cur)).setCur (s.cur + 1)).cur = s.cur + 1 :=
      State.setCur_cur _ (by omega)
    rw [setNextAll, setNext_lt (by omega), Flow.bind_done, ih _ (by simpa using hn) (by rw [hc]; simp; omega), hc]
    simp only [physBits, State.writeBits, List.length_cons, Flow.done.injEq, true_and]
    rw [State.writeBits_eq, State.writeBits_eq (s.bitWrite _ _)]
    have : ∀ (t : State) (n i : Nat) (bits : List Bool), ((t.setCur n).writeBits i bits).data = (t.writeBits i bits).data := by
      intro t n i bits
      induction bits generalizing t i with
      | nil => rfl
      | cons b bs ihb => exact ihb (t.bitWrite i b) (i + 1)
    rw [this]
    simp only [State.setCur]
    congr 2; omega

/-- The bit-serial writer when they do not all fit: those below `NBITS` stand, CURSOR is `NBITS`, and the command ends with
OUT_OF_RANGE (R68, R96). -/
theorem setNextAll_full (vs : List BitVal) (s : State) (hn : s.nbits < 2 ^ 32) (hc : s.cur ≤ s.nbits)
    (h : s.nbits < s.cur + vs.length) :
    setNextAll vs s = .raised .outOfRange
      ((s.writeBits s.cur (physBits s.cur (vs.take (s.nbits - s.cur)))).setCur s.nbits) := by
  have key : ∀ (us ws : List BitVal) (s : State), s.nbits < 2 ^ 32 → s.cur + us.length = s.nbits → ws ≠ [] →
      setNextAll (us ++ ws) s = (setNextAll us s).bind fun _ t => .raised .outOfRange t := by
    intro us ws
    induction us with
    | nil =>
      intro s _ hcur hw
      obtain ⟨w, ws, rfl⟩ := List.exists_cons_of_ne_nil hw
      simp only [List.length_nil] at hcur
      rw [List.nil_append, setNextAll, setNextAll, setNext_ge (by omega)]
      rfl
    | cons u us ih =>
      intro s hn hcur hw
      simp only [List.length_cons] at hcur
      have h1 : ((s.bitWrite s.cur (phys u s.cur)).setCur (s.cur + 1)).cur = s.cur + 1 :=
        State.setCur_cur _ (by omega)
      rw [List.cons_append, setNextAll, setNextAll, setNext_lt (by omega), Flow.bind_done, Flow.bind_done]
      exact ih _ (by simpa using hn) (by rw [h1]; simp; omega) hw
  have hlen : (vs.take (s.nbits - s.cur)).length = s.nbits - s.cur := by rw [List.length_take]; omega
  have hne : vs.drop (s.nbits - s.cur) ≠ [] := by
    intro he
    have := congrArg List.length he
    simp only [List.length_drop, List.length_nil] at this
    omega
  conv_lhs => rw [← List.take_append_drop (s.nbits - s.cur) vs]
  rw [key _ _ s hn (by rw [hlen]; omega) hne, setNextAll_fits _ s hn (by rw [hlen]; omega), Flow.bind_done, hlen]
  congr 2; omega

/-- The bit-serial reader when all its bits exist: their value MSB first, and CURSOR after them. -/
theorem getNextBits_fits (n r : Nat) (s : State) (hn : s.nbits < 2 ^ 32) (h : s.cur + n ≤ s.nbits) :
    getNextBits n r s = .done ((s.readBits s.cur n).foldl pushBit r) (s.setCur (s.cur + n)) := by
  induction n generalizing r s with
  | zero => simp [getNextBits, State.readBits]
  | succ n ih =>
    have hc : (s.setCur (s.cur + 1)).cur = s.cur + 1 := State.setCur_cur _ (by omega)
    rw [getNextBits, getNext_lt (by omega), Flow.bind_done, ih _ _ (by simpa using hn) (by rw [hc]; simp; omega), hc]
    have hbits : s.readBits s.cur (n + 1) = s.bitRead s.cur :: s.readBits (s.cur + 1) n := by
      simp only [State.readBits, List.range_succ_eq_map, List.map_cons, List.map_map, Nat.add_zero]
      congr 1
      apply List.map_congr_left
      intro j _
      simp only [Function.comp]
      congr 1; omega
    rw [hbits, List.foldl_cons]
    simp only [State.readBits, State.setCur_bitRead, State.setCur_setCur]
    congr 2; omega

/-- The bit-serial reader when they do not all exist: CURSOR is `NBITS` and nothing is returned (R68, R73). -/
theorem getNextBits_full (n r : Nat) (s : State) (hn : s.nbits < 2 ^ 32) (hc : s.cur ≤ s.nbits)
    (h : s.nbits < s.cur + n) : getNextBits n r s = .raised .outOfRange (s.setCur s.nbits) := by
  induction n generalizing r s with
  | zero => omega
  | succ n ih =>
    rcases Nat.lt_or_ge s.cur s.nbits with hlt | hge
    · have hc1 : (s.setCur (s.cur + 1)).cur = s.cur + 1 := State.setCur_cur _ (by omega)
      rw [getNextBits, getNext_lt hlt, Flow.bind_done,
        ih _ _ (by simpa using hn) (by rw [hc1]; simp; omega) (by rw [hc1]; simp; omega)]
      simp
    · rw [getNextBits, getNext_ge hge, Flow.bind_raised, show s.nbits = s.cur by omega, State.setCur_self]

/-- The value of a run of bits is the sum of its weights (R29). -/
theorem natOfBits_readBits (s : State) (i n : Nat) : natOfBits (s.readBits i n) = uintAt s i n := by
  induction n with
  | zero => rfl
  | succ n ih =>
    have h1 : s.readBits i (n + 1) = s.readBits i n ++ [s.bitRead (i + n)] := by
      simp [State.readBits, List.range_succ]
    have h2 : uintAt s i (n + 1) = 2 * uintAt s i n + (s.bitRead (i + n)).toNat := by
      simp only [uintAt, Finset.sum_range_succ, Nat.add_sub_cancel, Nat.sub_self, pow_zero, mul_one, Finset.mul_sum]
      congr 1
      apply Finset.sum_congr rfl
      intro j hj
      have : n - j = n - 1 - j + 1 := by have := Finset.mem_range.1 hj; omega
      rw [this, pow_succ]; ring
    rw [h1, h2, ← ih]
    simp only [natOfBits, List.foldl_append, List.foldl_cons, List.foldl_nil, pushBit]

/-- A run of `n` bits has a value below `2^n` (R82). -/
theorem uintAt_lt (s : State) (i n : Nat) : uintAt s i n < 2 ^ n := by
  have h : ∀ l : List Bool, ∀ r k, r < 2 ^ k → l.foldl pushBit r < 2 ^ (k + l.length) := by
    intro l
    induction l with
    | nil => intro r k h; simpa using h
    | cons b l ih =>
      intro r k h
      rw [List.foldl_cons, List.length_cons, show k + (l.length + 1) = (k + 1) + l.length by omega]
      apply ih
      unfold pushBit
      have hb : b.toNat ≤ 1 := by cases b <;> decide
      rw [pow_succ]; omega
  have := h (s.readBits i n) 0 0 (by simp)
  simpa [← natOfBits_readBits, natOfBits] using this

@[simp] theorem length_valueBits {w : Nat} (val : BitVec w) (n : Nat) : (valueBits val n).length = n := by
  simp [valueBits]

theorem getD_valueBits {w : Nat} (val : BitVec w) {n k : Nat} (h : k < n) :
    (valueBits val n).getD k .zero = plainVal (val.getLsbD (n - 1 - k)) := by
  simp [valueBits, List.getD_eq_getElem?_getD, h]

/-- A plain value writes the bit itself (R34). -/
@[simp] theorem phys_plainVal (b : Bool) (i : Nat) : phys (plainVal b) i = b := by
  cases b <;> rfl

end Sys2Proof.Machine
end

