-- ==== Sys2Proof/Laws/Exec.lean ====
section
/-! SUPPORT. What one command can do to the state, said once. A command is built from four moves: a bit write below `NBITS`, a
run of whole bytes inside the capacity, a cursor move within bounds, and the response. A property that the four moves keep
is kept by every command and by every step; frames and invariants are instances of this. -/

namespace Sys2Proof.Machine

/-- The state in which a command body ends, whatever it ends with. -/
def Flow.state {α : Type} : Flow α → State
  | .done _ s => s
  | .raised _ s => s

@[simp] theorem Flow.state_done {α : Type} (a : α) (s : State) : (Flow.done a s).state = s := rfl

@[simp] theorem Flow.state_raised {α : Type} (st : Status) (s : State) : (Flow.raised st s : Flow α).state = s := rfl

/-- A property is kept by the four moves of a command. -/
structure Kept (P : State → Prop) : Prop where
  /-- A bit write below `NBITS`. -/
  bit : ∀ s i b, P s → i < s.nbits → P (s.bitWrite i b)
  /-- A run of whole bytes inside the capacity. -/
  bytes : ∀ s a bs, P s → a + bs.length ≤ s.cap → P { s with data := Memory.writeBytes s.data a bs }
  /-- A cursor move to a place that exists, or back. -/
  cur : ∀ s n, P s → n ≤ s.nbits ∨ n ≤ s.cur → P (s.setCur n)
  /-- The response. -/
  resp : ∀ s st r, P s → P (s.respond st r)

/-- What follows a body keeps the property if both do. -/
theorem Flow.bind_kept {α β : Type} {P : State → Prop} {f : Flow α} {k : α → State → Flow β} (hf : P f.state)
    (hk : ∀ a t, f = .done a t → P t → P (k a t).state) : P (f.bind k).state := by
  cases f with
  | done a t => exact hk a t rfl hf
  | raised st t => exact hf

theorem getAt_kept {P : State → Prop} {i : Nat} {s : State} (h : P s) : P (getAt i s).state := by
  unfold getAt; split <;> exact h

theorem setAt_kept {P : State → Prop} (hP : Kept P) {i : Nat} {v : BitVal} {s : State} (h : P s) :
    P (setAt i v s).state := by
  unfold setAt
  split
  · exact h
  · exact hP.bit _ _ _ h (by omega)

theorem setNext_kept {P : State → Prop} (hP : Kept P) {v : BitVal} {s : State} (h : P s) :
    P (setNext v s).state := by
  rcases Nat.lt_or_ge s.cur s.nbits with hlt | hge
  · rw [setNext_lt hlt]
    exact hP.cur _ _ (hP.bit _ _ _ h hlt) (Or.inl hlt)
  · rw [setNext_ge hge]; exact h

theorem getNext_kept {P : State → Prop} (hP : Kept P) {s : State} (h : P s) : P (getNext s).state := by
  rcases Nat.lt_or_ge s.cur s.nbits with hlt | hge
  · rw [getNext_lt hlt]; exact hP.cur _ _ h (Or.inl hlt)
  · rw [getNext_ge hge]; exact h

theorem setNextAll_kept {P : State → Prop} (hP : Kept P) (vs : List BitVal) {s : State} (h : P s) :
    P (setNextAll vs s).state := by
  induction vs generalizing s with
  | nil => exact h
  | cons v vs ih => exact Flow.bind_kept (setNext_kept hP h) fun _ _ _ ht => ih ht

theorem getNextBits_kept {P : State → Prop} (hP : Kept P) (n r : Nat) {s : State} (h : P s) :
    P (getNextBits n r s).state := by
  induction n generalizing r s with
  | zero => exact h
  | succ n ih => exact Flow.bind_kept (getNext_kept hP h) fun _ _ _ ht => ih _ ht

/-- A property of every state along with the size it never changes: a move keeps the capacity. -/
theorem Kept.withCap {P : State → Prop} (hP : Kept P) (c : Nat) : Kept (fun s => P s ∧ s.cap = c) where
  bit s i b h hi := ⟨hP.bit s i b h.1 hi, h.2⟩
  bytes s a bs h ha := ⟨hP.bytes s a bs h.1 ha, h.2⟩
  cur s n h hn := ⟨hP.cur s n h.1 hn, h.2⟩
  resp s st r h := ⟨hP.resp s st r h.1, h.2⟩

theorem writeBits_kept {P : State → Prop} (hP : Kept P) (i : Nat) (bits : List Bool) {s : State} (h : P s)
    (hi : i + bits.length ≤ s.nbits) : P (s.writeBits i bits) := by
  induction bits generalizing s i with
  | nil => exact h
  | cons b bs ih =>
    simp only [List.length_cons] at hi
    exact ih (i + 1) (hP.bit _ _ _ h (by omega)) (by simp only [State.bitWrite_nbits]; omega)

theorem clear_kept {P : State → Prop} (hP : Kept P) {s : State} (h : P s) : P s.clear :=
  hP.cur _ _ (hP.bytes _ _ _ h (by simp)) (Or.inl (Nat.zero_le _))

theorem unhexFrom_kept {P : State → Prop} (hP : Kept P) (inp : List Byte) (i n : Nat) {s : State} (h : P s)
    (hi : i + n ≤ 2 * s.cap) : P (unhexFrom inp i n s).state := by
  suffices hs : ∀ c, i + n ≤ 2 * c → ∀ s, P s ∧ s.cap = c → P (unhexFrom inp i n s).state ∧ (unhexFrom inp i n s).state.cap = c from
    (hs s.cap hi s ⟨h, rfl⟩).1
  clear hi h s
  intro c
  have hQ := hP.withCap c
  induction n generalizing i with
  | zero => intro _ s h; exact h
  | succ n ih =>
    intro hi s h
    rw [unhexFrom]
    split
    · exact h
    · refine Flow.bind_kept (P := fun s => P s ∧ s.cap = c) (setNextAll_kept hQ _ ?_) fun _ t _ ht => ih _ (by omega) t ht
      exact hQ.cur _ _ h (Or.inl (by have := h.2; unfold State.nbits; omega))

theorem finish_kept {P : State → Prop} (hP : Kept P) (r2 : BitVec 32) {f : Flow Response} (h : P f.state) :
    P (finish r2 f) := by
  cases f <;> exact hP.resp _ _ _ h

/-- A command ends in a next state with every property that its body keeps. -/
theorem runCommand_kept {P : State → Prop} (hP : Kept P) {framing : Bool} {r2 : BitVec 32}
    {body : State → Flow Response} {s : State} (h : P s) (hb : P (body s).state) :
    ∃ t, runCommand framing r2 body s = .next t ∧ P t := by
  cases framing
  · exact ⟨_, rfl, hP.resp _ _ _ h⟩
  · exact ⟨_, rfl, finish_kept hP _ hb⟩

/-- Every command ends in a next state, and keeps every property that the four moves keep. -/
theorem exec_kept {P : State → Prop} (hP : Kept P) (i : Instr) {s : State} (h : P s) :
    ∃ t, exec i s = .next t ∧ P t := by
  cases i with
  | getBit =>
    rw [exec, execGetBit]
    exact runCommand_kept hP h (Flow.bind_kept (getAt_kept h) fun _ _ _ ht => ht)
  | getBitHl =>
    rw [exec, execGetBitHl]
    exact runCommand_kept hP h (Flow.bind_kept (getAt_kept h) fun _ _ _ ht => ht)
  | setBit v =>
    rw [exec, execSetBit]
    exact runCommand_kept hP h (Flow.bind_kept (setAt_kept hP h) fun _ _ _ ht => ht)
  | findFirstBit v =>
    rw [exec, execFindFirstBit]
    refine runCommand_kept hP h ?_
    split <;> exact h
  | nthSetBit =>
    rw [exec, execNthSetBit]
    refine runCommand_kept hP h ?_
    split <;> exact h
  | setNextBit v =>
    rw [exec, execSetNextBit]
    exact runCommand_kept hP h (Flow.bind_kept (setNext_kept hP h) fun _ _ _ ht => ht)
  | getNextBitHl =>
    rw [exec, execGetNextBitHl]
    exact runCommand_kept hP h (Flow.bind_kept (getNext_kept hP h) fun _ _ _ ht => ht)
  | setBits =>
    rw [exec, execSetBits]
    exact runCommand_kept hP h (Flow.bind_kept (setNextAll_kept hP _ h) fun _ _ _ ht => ht)
  | setUint nb =>
    rw [exec, execSetUint]
    refine runCommand_kept hP h ?_
    split
    · exact h
    · exact Flow.bind_kept (setNextAll_kept hP _ h) fun _ _ _ ht => ht
  | getUint nb =>
    rw [exec, execGetUint]
    refine runCommand_kept hP h ?_
    split
    · exact h
    · exact Flow.bind_kept (getNextBits_kept hP _ _ h) fun _ _ _ ht => ht
  | getInt16Msb nb =>
    rw [exec, execGetInt16Msb]
    refine runCommand_kept hP h ?_
    split <;> exact h
  | fill v =>
    rw [exec, execFill]
    exact runCommand_kept hP h (Flow.bind_kept (setNextAll_kept hP _ h) fun _ _ _ ht => ht)
  | sparePadding =>
    rw [exec, execSparePadding]
    refine runCommand_kept hP h ?_
    simp only
    split
    · exact h
    · exact Flow.bind_kept (setNextAll_kept hP _ h) fun _ _ _ ht => ht
  | getBytes =>
    rw [exec, execGetBytes]
    refine runCommand_kept hP h ?_
    split
    · exact h
    · exact hP.cur _ _ h (Or.inl (by omega))
  | setBytes =>
    rw [exec, execSetBytes]
    by_cases hf : s.inLenIs s.opa = true
    · have hlen : s.inp.length = s.opa := by simpa [State.inLenIs] using hf
      refine runCommand_kept hP h ?_
      split
      · exact h
      · refine hP.cur _ _ (writeBits_kept hP _ _ h (by rw [length_bitsOfBytes]; omega)) (Or.inl ?_)
        rw [State.writeBits_eq]
        show _ ≤ s.nbits
        omega
    · rw [runCommand_illegal _ _ _ (by simpa using hf)]
      exact ⟨_, rfl, hP.resp _ _ _ h⟩
  | readField nb =>
    rw [exec, execReadField]
    refine runCommand_kept hP h ?_
    split
    · exact h
    · split
      · exact h
      · exact Flow.bind_kept (getNextBits_kept hP _ _ (hP.cur _ _ h (Or.inl (by omega)))) fun _ _ _ ht => ht
  | writeField nb =>
    rw [exec, execWriteField]
    refine runCommand_kept hP h ?_
    split
    · exact h
    · split
      · exact h
      · exact Flow.bind_kept (setNextAll_kept hP _ (hP.cur _ _ h (Or.inl (by omega)))) fun _ _ _ ht => ht
  | unhex =>
    rw [exec, execUnhex]
    exact runCommand_kept hP h (Flow.bind_kept (unhexFrom_kept hP _ _ _ h (by omega)) fun _ _ _ ht => ht)
  | zero =>
    rw [exec, execZero]
    exact runCommand_kept hP h (clear_kept hP h)
  | pack =>
    rw [exec, execPack]
    exact runCommand_kept hP h h
  | unpack =>
    rw [exec, execUnpack]
    by_cases hf : s.inLenIs s.cap = true
    · have hlen : s.inp.length = s.cap := by simpa [State.inLenIs] using hf
      exact runCommand_kept hP h (hP.bytes _ _ _ h (by omega))
    · rw [runCommand_illegal _ _ _ (by simpa using hf)]
      exact ⟨_, rfl, hP.resp _ _ _ h⟩
  | display =>
    rw [exec, execDisplay]
    exact runCommand_kept hP h h
  | runLength target =>
    rw [exec, execRunLength]
    exact runCommand_kept hP h h
  | shiftLeft =>
    rw [exec, execShiftLeft]
    refine runCommand_kept hP h ?_
    split
    · exact h
    · split
      · exact clear_kept hP h
      · refine hP.cur _ _ (writeBits_kept hP _ _ h (by simp [State.shiftedBits])) (Or.inr ?_)
        rw [State.writeBits_eq]
        show _ ≤ s.cur
        omega

/-- Every step keeps every property that the four moves and the presenting of a packet keep. -/
theorem step_kept {P : State → Prop} (hP : Kept P) (hp : ∀ s p rest, P s → P (s.present p rest)) {s t : State}
    (h : P s) (hs : step s = .next t) : P t := by
  unfold step at hs
  split at hs
  · cases hs; exact h
  · split at hs
    · cases hs; exact hP.resp _ _ _ (hp _ _ _ h)
    · obtain ⟨u, hu, hPu⟩ := exec_kept hP _ (hp s _ _ h)
      rw [hu] at hs
      cases hs
      exact hPu

/-! ### The shape of every command -/

/-- A body that raises, raises one of the statuses in `S`. -/
def Flow.RaisesOnly {α : Type} (S : Status → Prop) : Flow α → Prop
  | .done _ _ => True
  | .raised st _ => S st

theorem Flow.bind_raisesOnly {α β : Type} {S : Status → Prop} {f : Flow α} {k : α → State → Flow β}
    (hf : f.RaisesOnly S) (hk : ∀ a t, (k a t).RaisesOnly S) : (f.bind k).RaisesOnly S := by
  cases f with
  | done a t => exact hk a t
  | raised st t => exact hf

theorem getAt_raisesOnly {S : Status → Prop} (h : S .outOfRange) (i : Nat) (s : State) : (getAt i s).RaisesOnly S := by
  unfold getAt; split
  · exact h
  · trivial

theorem setAt_raisesOnly {S : Status → Prop} (h : S .outOfRange) (i : Nat) (v : BitVal) (s : State) :
    (setAt i v s).RaisesOnly S := by
  unfold setAt; split
  · exact h
  · trivial

theorem setNext_raisesOnly {S : Status → Prop} (h : S .outOfRange) (v : BitVal) (s : State) :
    (setNext v s).RaisesOnly S :=
  Flow.bind_raisesOnly (setAt_raisesOnly h _ _ _) fun _ _ => trivial

theorem getNext_raisesOnly {S : Status → Prop} (h : S .outOfRange) (s : State) : (getNext s).RaisesOnly S :=
  Flow.bind_raisesOnly (getAt_raisesOnly h _ _) fun _ _ => trivial

theorem setNextAll_raisesOnly {S : Status → Prop} (h : S .outOfRange) (vs : List BitVal) (s : State) :
    (setNextAll vs s).RaisesOnly S := by
  induction vs generalizing s with
  | nil => trivial
  | cons v vs ih => exact Flow.bind_raisesOnly (setNext_raisesOnly h v s) fun _ t => ih t

theorem getNextBits_raisesOnly {S : Status → Prop} (h : S .outOfRange) (n r : Nat) (s : State) :
    (getNextBits n r s).RaisesOnly S := by
  induction n generalizing r s with
  | zero => trivial
  | succ n ih => exact Flow.bind_raisesOnly (getNext_raisesOnly h s) fun _ t => ih _ t

theorem unhexFrom_raisesOnly {S : Status → Prop} (h : S .outOfRange) (hm : S .malformedInput) (inp : List Byte)
    (i n : Nat) (s : State) : (unhexFrom inp i n s).RaisesOnly S := by
  induction n generalizing i s with
  | zero => trivial
  | succ n ih =>
    rw [unhexFrom]
    split
    · exact hm
    · exact Flow.bind_raisesOnly (setNextAll_raisesOnly h _ _) fun _ t => ih _ t

/-- A status that a command body may raise. -/
def Status.isFailure : Status → Prop
  | .ok | .illegalCommand => False
  | .outOfRange | .invalidArgument | .notFound | .malformedInput => True

/-- Every command is the framing check of R57 and then a body, and RES2 after a failure of the body is OPA for the pair with an
external cursor and 0 for all others (R95, R98). -/
theorem exec_shape (i : Instr) (s : State) : ∃ framing r2 body, exec i s = runCommand framing r2 body s ∧
    (framing = true ↔ FramedBy s i) ∧ r2 = (if HasExternalCursor i = true then s.packet.opa else 0#32) ∧
    (body s).RaisesOnly Status.isFailure := by
  have h0 : s.inLenIs 0 = true ↔ s.inp = [] := by simp [State.inLenIs]
  have hr : Status.isFailure .outOfRange := trivial
  have thenDone : ∀ {f : Flow Unit} {r : Response}, f.RaisesOnly Status.isFailure →
      (f.bind fun _ t => .done r t).RaisesOnly Status.isFailure := fun h => Flow.bind_raisesOnly h fun _ _ => trivial
  cases i with
  | getBit =>
    rw [exec, execGetBit]
    exact ⟨_, _, _, rfl, h0, rfl, Flow.bind_raisesOnly (getAt_raisesOnly hr _ _) fun _ _ => trivial⟩
  | getBitHl =>
    rw [exec, execGetBitHl]
    exact ⟨_, _, _, rfl, h0, rfl, Flow.bind_raisesOnly (getAt_raisesOnly hr _ _) fun _ _ => trivial⟩
  | setBit v => rw [exec, execSetBit]; exact ⟨_, _, _, rfl, h0, rfl, thenDone (setAt_raisesOnly hr _ _ _)⟩
  | findFirstBit v =>
    rw [exec, execFindFirstBit]; refine ⟨_, _, _, rfl, h0, rfl, ?_⟩; split <;> trivial
  | nthSetBit =>
    rw [exec, execNthSetBit]; refine ⟨_, _, _, rfl, h0, rfl, ?_⟩; split <;> trivial
  | setNextBit v => rw [exec, execSetNextBit]; exact ⟨_, _, _, rfl, h0, rfl, thenDone (setNext_raisesOnly hr _ _)⟩
  | getNextBitHl =>
    rw [exec, execGetNextBitHl]
    exact ⟨_, _, _, rfl, h0, rfl, Flow.bind_raisesOnly (getNext_raisesOnly hr _) fun _ _ => trivial⟩
  | setBits =>
    rw [exec, execSetBits]
    exact ⟨_, _, _, rfl, by simp [State.inLenIs, FramedBy], rfl, thenDone (setNextAll_raisesOnly hr _ _)⟩
  | setUint nb =>
    rw [exec, execSetUint]; refine ⟨_, _, _, rfl, h0, rfl, ?_⟩; split
    · trivial
    · exact thenDone (setNextAll_raisesOnly hr _ _)
  | getUint nb =>
    rw [exec, execGetUint]; refine ⟨_, _, _, rfl, h0, rfl, ?_⟩; split
    · trivial
    · exact Flow.bind_raisesOnly (getNextBits_raisesOnly hr _ _ _) fun _ _ => trivial
  | getInt16Msb nb =>
    rw [exec, execGetInt16Msb]; refine ⟨_, _, _, rfl, h0, rfl, ?_⟩; split <;> trivial
  | fill v => rw [exec, execFill]; exact ⟨_, _, _, rfl, h0, rfl, thenDone (setNextAll_raisesOnly hr _ _)⟩
  | sparePadding =>
    rw [exec, execSparePadding]; refine ⟨_, _, _, rfl, h0, rfl, ?_⟩; simp only; split
    · trivial
    · exact thenDone (setNextAll_raisesOnly hr _ _)
  | getBytes =>
    rw [exec, execGetBytes]; refine ⟨_, _, _, rfl, h0, rfl, ?_⟩; split <;> trivial
  | setBytes =>
    rw [exec, execSetBytes]
    refine ⟨_, _, _, rfl, by simp [State.inLenIs, FramedBy], rfl, ?_⟩; split <;> trivial
  | readField nb =>
    rw [exec, execReadField]; refine ⟨_, _, _, rfl, h0, rfl, ?_⟩; split
    · trivial
    · split
      · trivial
      · exact Flow.bind_raisesOnly (getNextBits_raisesOnly hr _ _ _) fun _ _ => trivial
  | writeField nb =>
    rw [exec, execWriteField]; refine ⟨_, _, _, rfl, h0, rfl, ?_⟩; split
    · trivial
    · split
      · trivial
      · exact thenDone (setNextAll_raisesOnly hr _ _)
  | unhex =>
    rw [exec, execUnhex]
    exact ⟨_, _, _, rfl, by simp [State.inLenAny, FramedBy], rfl, thenDone (unhexFrom_raisesOnly hr trivial _ _ _ _)⟩
  | zero => rw [exec, execZero]; exact ⟨_, _, _, rfl, h0, rfl, trivial⟩
  | pack => rw [exec, execPack]; exact ⟨_, _, _, rfl, h0, rfl, trivial⟩
  | unpack => rw [exec, execUnpack]; exact ⟨_, _, _, rfl, by simp [State.inLenIs, FramedBy], rfl, trivial⟩
  | display => rw [exec, execDisplay]; exact ⟨_, _, _, rfl, h0, rfl, trivial⟩
  | runLength target => rw [exec, execRunLength]; exact ⟨_, _, _, rfl, h0, rfl, trivial⟩
  | shiftLeft =>
    rw [exec, execShiftLeft]; refine ⟨_, _, _, rfl, h0, rfl, ?_⟩; split
    · trivial
    · split <;> trivial

end Sys2Proof.Machine
end

