-- ==== Sys2Proof/Laws/PerInstr.lean ====
section
/-! SUPPORT. One fact per command about its word (30_encoding.md rules R49, R56): the reserved bits are zero, and a field that
the command does not use is zero. -/

namespace Sys2Proof.Laws.Fields

/-- The commands whose row uses V, as a value or as the RUN_LENGTH target (R50). -/
def UsesV : Instr → Bool
  | .setBit _ | .findFirstBit _ | .setNextBit _ | .fill _ | .runLength _ => true
  | .getBit | .getBitHl | .nthSetBit | .getNextBitHl | .setBits | .setUint _ | .getUint _ | .getInt16Msb _
  | .sparePadding | .getBytes | .setBytes | .readField _ | .writeField _ | .unhex | .zero | .pack | .unpack | .display
  | .shiftLeft => false

/-- The commands whose row uses NB (R51). -/
def UsesNb : Instr → Bool
  | .setUint _ | .getUint _ | .getInt16Msb _ | .readField _ | .writeField _ => true
  | .getBit | .getBitHl | .setBit _ | .findFirstBit _ | .nthSetBit | .setNextBit _ | .getNextBitHl | .setBits
  | .fill _ | .sparePadding | .getBytes | .setBytes | .unhex | .zero | .pack | .unpack | .display | .runLength _
  | .shiftLeft => false

/-- The reserved bits and the unused fields of the command's word are zero. -/
def Statement (i : Instr) : Prop :=
  fieldRsv (encode i) = 0#15 ∧ (UsesV i = false → fieldV (encode i) = 0#2) ∧
    (UsesNb i = false → fieldNb (encode i) = 0#7)

theorem getBit : Statement .getBit := by unfold Statement; decide
theorem getBitHl : Statement .getBitHl := by unfold Statement; decide
theorem setBit (v : BitVal) : Statement (.setBit v) := by unfold Statement; cases v <;> decide
theorem findFirstBit (v : BitVal) : Statement (.findFirstBit v) := by unfold Statement; cases v <;> decide
theorem nthSetBit : Statement .nthSetBit := by unfold Statement; decide
theorem setNextBit (v : BitVal) : Statement (.setNextBit v) := by unfold Statement; cases v <;> decide
theorem getNextBitHl : Statement .getNextBitHl := by unfold Statement; decide
theorem setBits : Statement .setBits := by unfold Statement; decide
theorem setUint (nb : BitVec 7) : Statement (.setUint nb) := by unfold Statement; revert nb; decide
theorem getUint (nb : BitVec 7) : Statement (.getUint nb) := by unfold Statement; revert nb; decide
theorem getInt16Msb (nb : BitVec 7) : Statement (.getInt16Msb nb) := by unfold Statement; revert nb; decide
theorem fill (v : BitVal) : Statement (.fill v) := by unfold Statement; cases v <;> decide
theorem sparePadding : Statement .sparePadding := by unfold Statement; decide
theorem getBytes : Statement .getBytes := by unfold Statement; decide
theorem setBytes : Statement .setBytes := by unfold Statement; decide
theorem readField (nb : BitVec 7) : Statement (.readField nb) := by unfold Statement; revert nb; decide
theorem writeField (nb : BitVec 7) : Statement (.writeField nb) := by unfold Statement; revert nb; decide
theorem unhex : Statement .unhex := by unfold Statement; decide
theorem zero : Statement .zero := by unfold Statement; decide
theorem pack : Statement .pack := by unfold Statement; decide
theorem unpack : Statement .unpack := by unfold Statement; decide
theorem display : Statement .display := by unfold Statement; decide
theorem runLength (target : Bool) : Statement (.runLength target) := by unfold Statement; cases target <;> decide
theorem shiftLeft : Statement .shiftLeft := by unfold Statement; decide

end Sys2Proof.Laws.Fields
end

