-- ==== Sys2Proof/Laws/Written.lean ====
section
/-! SUPPORT. What the writing commands leave in the storage, in the terms of `BitsWritten`, and the values of runs of bits: the
lemmas that the statements about one command cite. -/

namespace Sys2Proof.Machine

/-- A capacity in range keeps `NBITS` inside 32 bits (R8). -/
theorem State.nbits_lt {s : State} (h : capacityOk s.cap = true) : s.nbits < 2 ^ 32 := by
  simp only [capacityOk, Bool.and_eq_true, decide_eq_true_eq] at h
  have h2 : Config.maxCapBytes = 536870911 := rfl
  unfold State.nbits; omega

/-- States with one storage have the same bits. -/
theorem State.bitRead_congr {s t : State} (h : t.data = s.data) (i : Nat) : t.bitRead i = s.bitRead i := by
  simp only [State.bitRead, h]

/-- `BitsWritten` sees the storage alone. -/
theorem BitsWritten.congr {s t u : State} {start n : Nat} {bit : Nat → Bool} (h : BitsWritten s t start n bit)
    (hd : u.data = t.data) : BitsWritten s u start n bit :=
  ⟨fun i => by rw [State.bitRead_congr hd]; exact h.1 i, fun a ha => by rw [hd]; exact h.2 a ha⟩

/-- An unchecked run of bits is `BitsWritten`. -/
theorem bitsWritten_of_writeBits {s t : State} {i n : Nat} {bits : List Bool} {bit : Nat → Bool}
    (hd : t.data = (s.writeBits i bits).data) (hl : bits.length = n)
    (hb : ∀ k, k < n → bits.getD k false = bit (i + k)) : BitsWritten s t i n bit := by
  have hbit : ∀ j, t.bitRead j = if i ≤ j ∧ j < i + n then bit j else s.bitRead j := by
    intro j
    rw [State.bitRead_congr (s := s.writeBits i bits) hd, State.bitRead_writeBits, hl]
    by_cases h : i ≤ j ∧ j < i + n
    · rw [if_pos h, if_pos h, hb _ (by omega)]; congr 1; omega
    · rw [if_neg h, if_neg h]
  refine ⟨hbit, fun a ha => State.read_congr fun j hj => ?_⟩
  rw [hbit, if_neg]
  exact fun h => ha j h.1 h.2 hj

/-- The bit-serial writer when its bits fit (R68). -/
theorem setNextAll_writes {s : State} {vs : List BitVal} {n : Nat} {bit : Nat → Bool} (hn : s.nbits < 2 ^ 32)
    (hl : vs.length = n) (hfit : s.cur + n ≤ s.nbits)
    (hb : ∀ k, k < n → phys (vs.getD k .zero) (s.cur + k) = bit (s.cur + k)) :
    ∃ d, setNextAll vs s = .done () { s with data := d, cursor := BitVec.ofNat 32 (s.cur + n) } ∧
      BitsWritten s { s with data := d } s.cur n bit := by
  subst hl
  refine ⟨(s.writeBits s.cur (physBits s.cur vs)).data, ?_, ?_⟩
  · rw [setNextAll_fits vs s hn hfit, State.writeBits_eq]; rfl
  · refine bitsWritten_of_writeBits (bits := physBits s.cur vs) rfl (by simp) fun k hk => ?_
    rw [getD_physBits _ _ _ hk, hb k hk]

/-- The bit-serial writer when its bits do not all fit: those below `NBITS` stay (R68, R96). -/
theorem setNextAll_overflows {s : State} {vs : List BitVal} {bit : Nat → Bool} (hn : s.nbits < 2 ^ 32)
    (hc : s.cur ≤ s.nbits) (hfull : s.nbits < s.cur + vs.length)
    (hb : ∀ k, k < vs.length → phys (vs.getD k .zero) (s.cur + k) = bit (s.cur + k)) :
    ∃ d, setNextAll vs s = .raised .outOfRange { s with data := d, cursor := BitVec.ofNat 32 s.nbits } ∧
      BitsWritten s { s with data := d } s.cur (s.nbits - s.cur) bit := by
  refine ⟨(s.writeBits s.cur (physBits s.cur (vs.take (s.nbits - s.cur)))).data, ?_, ?_⟩
  · rw [setNextAll_full vs s hn hc hfull, State.writeBits_eq]; rfl
  · refine bitsWritten_of_writeBits (bits := physBits s.cur (vs.take (s.nbits - s.cur))) rfl (by simp; omega)
      fun k hk => ?_
    rw [getD_physBits _ _ _ (by simp; omega), ← hb k (by omega)]
    congr 1
    simp only [List.getD_eq_getElem?_getD, List.getElem?_take, if_pos hk]

theorem getD_replicate_value (v : BitVal) {n k : Nat} (h : k < n) : (List.replicate n v).getD k .zero = v := by
  simp [List.getD_eq_getElem?_getD, h]

/-! ### Values of runs of bits -/

theorem uintAt_succ (s : State) (i n : Nat) : uintAt s i (n + 1) = 2 * uintAt s i n + (s.bitRead (i + n)).toNat := by
  have h : s.readBits i (n + 1) = s.readBits i n ++ [s.bitRead (i + n)] := by
    simp [State.readBits, List.range_succ]
  rw [← natOfBits_readBits, ← natOfBits_readBits, h]
  simp only [natOfBits, List.foldl_append, List.foldl_cons, List.foldl_nil, pushBit]

/-- A run splits into its leading and its trailing part. -/
theorem uintAt_add (s : State) (i m n : Nat) : uintAt s i (m + n) = uintAt s i m * 2 ^ n + uintAt s (i + m) n := by
  induction n with
  | zero => simp [uintAt]
  | succ n ih =>
    rw [← Nat.add_assoc, uintAt_succ, ih, uintAt_succ, pow_succ, show i + (m + n) = i + m + n by omega]
    ring

/-- The leading part of a run is the run without its low bits. -/
theorem uintAt_prefix (s : State) (i : Nat) {m n : Nat} (h : m ≤ n) : uintAt s i m = uintAt s i n / 2 ^ (n - m) := by
  obtain ⟨k, rfl⟩ := Nat.exists_eq_add_of_le h
  rw [uintAt_add, Nat.add_sub_cancel_left, Nat.add_comm, Nat.mul_comm, Nat.add_mul_div_left _ _ (by positivity),
    Nat.div_eq_of_lt (uintAt_lt _ _ _), Nat.zero_add]

/-- Eight bits at an aligned index are the storage byte (R30). -/
theorem uintAt_byte (s : State) (a : Nat) : uintAt s (8 * a) 8 = (Memory.read s.data a).toNat := by
  have hb : ∀ j, j < 8 → s.bitRead (8 * a + j) = (Memory.read s.data a).getLsbD (7 - j) := by
    intro j hj
    rw [State.read_getLsbD _ _ (by omega)]
    congr 2; omega
  have h0 : uintAt s (8 * a) 0 = 0 := rfl
  simp only [uintAt_succ, h0, hb 0 (by omega), hb 1 (by omega), hb 2 (by omega), hb 3 (by omega), hb 4 (by omega),
    hb 5 (by omega), hb 6 (by omega), hb 7 (by omega)]
  generalize Memory.read s.data a = x
  revert x
  decide

/-- What the low/high view puts in RES (R35, D36). -/
theorem resVal_hlVal (b : Bool) (i : Nat) : resVal (hlVal b i) = if b = lpat i then 2#64 else 3#64 := by
  unfold hlVal resVal
  cases b <;> cases lpat i <;> rfl

/-! ### Scans (R66, R67, R87) -/

theorem findFrom_eq_some {v : BitVal} {s : State} {i n k : Nat} (h1 : i ≤ k) (h2 : k < i + n)
    (h3 : plainVal (s.bitRead k) = v) (h4 : ∀ j, i ≤ j → j < k → plainVal (s.bitRead j) ≠ v) :
    findFrom v s i n = some k := by
  induction n generalizing i with
  | zero => omega
  | succ n ih =>
    rw [findFrom]
    by_cases hik : i = k
    · subst hik; rw [if_pos h3]
    · rw [if_neg (h4 i le_rfl (by omega))]
      exact ih (by omega) (by omega) fun j hj => h4 j (by omega)

theorem findFrom_eq_none {v : BitVal} {s : State} {i n : Nat}
    (h : ∀ j, i ≤ j → j < i + n → plainVal (s.bitRead j) ≠ v) : findFrom v s i n = none := by
  induction n generalizing i with
  | zero => rfl
  | succ n ih =>
    rw [findFrom, if_neg (h i le_rfl (by omega))]
    exact ih fun j hj hj2 => h j (by omega) (by omega)

theorem onesBelow_succ (s : State) (n : Nat) : onesBelow s (n + 1) = onesBelow s n + (s.bitRead n).toNat := by
  unfold onesBelow
  rw [List.range_succ, List.filter_append, List.length_append]
  cases h : s.bitRead n <;> simp [h]

theorem onesBelow_mono (s : State) {a b : Nat} (h : a ≤ b) : onesBelow s a ≤ onesBelow s b := by
  induction b with
  | zero => rw [Nat.le_zero.1 h]
  | succ b ih =>
    rcases Nat.lt_or_ge a (b + 1) with h1 | h1
    · rw [onesBelow_succ]; have := ih (by omega); omega
    · rw [show a = b + 1 by omega]

theorem nthFrom_eq_some {n : Nat} {s : State} {i fuel k : Nat} (hik : i ≤ k) (hk : k < i + fuel)
    (hb : s.bitRead k = true) (hn : onesBelow s k + 1 = n) : nthFrom n s (onesBelow s i) i fuel = some k := by
  induction fuel generalizing i with
  | zero => omega
  | succ fuel ih =>
    rw [nthFrom]
    by_cases h : i = k
    · subst h; rw [if_pos hb, if_pos hn]
    · have hm := onesBelow_mono s (show i + 1 ≤ k by omega)
      have := ih (i := i + 1) (by omega) (by omega)
      rw [onesBelow_succ] at this hm
      cases hbi : s.bitRead i
      · rw [hbi] at this; simpa using this
      · rw [hbi] at this hm
        simp only [Bool.toNat_true] at this hm
        rw [if_pos rfl, if_neg (by omega)]
        exact this

theorem nthFrom_eq_none {n : Nat} {s : State} {i fuel : Nat} (hn : onesBelow s (i + fuel) < n ∨ n = 0) :
    nthFrom n s (onesBelow s i) i fuel = none := by
  induction fuel generalizing i with
  | zero => rfl
  | succ fuel ih =>
    rw [nthFrom]
    have hm := onesBelow_mono s (show i + 1 ≤ i + (fuel + 1) by omega)
    have := ih (i := i + 1) (by rwa [show i + 1 + fuel = i + (fuel + 1) by omega])
    rw [onesBelow_succ] at this hm
    cases hbi : s.bitRead i
    · rw [hbi] at this; simpa using this
    · rw [hbi] at this hm
      simp only [Bool.toNat_true] at this hm
      rw [if_pos rfl, if_neg (by omega)]
      exact this

theorem length_takeWhile_range {p : Nat → Bool} {n r : Nat} (hr : r ≤ n) (h : ∀ i, i < r → p i = true)
    (he : r = n ∨ p r = false) : ((List.range n).takeWhile p).length = r := by
  have h1 : List.range n = List.range r ++ (List.range (n - r)).map (r + ·) := by
    rw [← List.range_add]; congr 1; omega
  rw [h1, List.takeWhile_append_of_pos (by simpa using h), List.length_append, List.length_range]
  rcases he with rfl | he
  · simp
  · cases n - r with
    | zero => simp
    | succ k => rw [List.range_succ_eq_map]; simp [he]

/-! ### Hex digits, rendering and clearing (R81, R86, R83) -/

/-- The bit at index `i` of a storage loaded from hex digits (R81). -/
def hexBit (inp : List Byte) (i : Nat) : Bool := ((hexDigit (charAt inp (i / 4))).getD 0#4).getLsbD (3 - i % 4)

/-- A run of `n` good digits from digit `i` on, whatever follows. -/
theorem unhexFrom_digits (inp : List Byte) (s : State) (hn : s.nbits < 2 ^ 32) (i n : Nat)
    (hfit : 4 * (i + n) ≤ s.nbits) (hd : ∀ k, i ≤ k → k < i + n → hexDigit (charAt inp k) ≠ none) (rest : Nat) :
    ∃ d, unhexFrom inp i (n + rest) s = unhexFrom inp (i + n) rest
        { s with data := d, cursor := if n = 0 then s.cursor else BitVec.ofNat 32 (4 * (i + n)) } ∧
      BitsWritten s { s with data := d } (4 * i) (4 * n) (hexBit inp) := by
  induction n generalizing i s with
  | zero => exact ⟨s.data, by simp, fun j => by rw [if_neg (by omega)], fun a _ => rfl⟩
  | succ n ih =>
    obtain ⟨x, hx⟩ := Option.ne_none_iff_exists'.1 (hd i le_rfl (by omega))
    have hc : (s.setCur (4 * i)).cur = 4 * i := State.setCur_cur _ (by omega)
    obtain ⟨d, h1, h2⟩ := setNextAll_writes (s := s.setCur (4 * i)) (vs := valueBits x 4) (n := 4) (bit := hexBit inp)
      (by simpa using hn) (by simp) (by rw [hc, State.setCur_nbits]; omega) fun k hk => by
        rw [hc, getD_valueBits _ hk, phys_plainVal, hexBit, show (4 * i + k) / 4 = i by omega, hx,
          show (4 * i + k) % 4 = k by omega]
        rfl
    rw [hc] at h1 h2
    obtain ⟨d', h3, h4⟩ := ih { s with data := d, cursor := BitVec.ofNat 32 (4 * i + 4) } hn (i + 1)
      (show 4 * (i + 1 + n) ≤ s.nbits by omega) fun k hk hk2 => hd k (by omega) (by omega)
    refine ⟨d', ?_, fun j => ?_, fun a ha => ?_⟩
    · rw [show n + 1 + rest = n + rest + 1 by omega, unhexFrom, hx]
      simp only [h1, Flow.bind_done]
      refine Eq.trans h3 ?_
      rw [show i + 1 + n = i + (n + 1) by omega]
      congr 1
      by_cases h0 : n = 0
      · subst h0; simp; congr 1
      · simp [h0]
    · rw [show State.bitRead { s with data := d' } j = _ from h4.1 j,
        show State.bitRead { s with data := d, cursor := BitVec.ofNat 32 (4 * i + 4) } j = _ from h2.1 j]
      simp only [State.setCur_bitRead]
      split_ifs <;> first | rfl | omega
    · exact (h4.2 a fun j h5 h6 => ha j (by omega) (by omega)).trans
        (h2.2 a fun j h5 h6 => ha j (by omega) (by omega))

/-- The rendering of `n` bits: its length, its characters and its separators (R86). -/
theorem displayBits_spec (s : State) (n : Nat) :
    ((List.range n).flatMap s.displayBit).length = n + (n + 7) / 8 ∧
    (∀ i, i < n → ((List.range n).flatMap s.displayBit).getD (i + i / 8 + 1) 0#8
      = if s.bitRead i then 0x31#8 else 0x30#8) ∧
    (∀ k, 8 * k < n → ((List.range n).flatMap s.displayBit).getD (9 * k) 0#8 = 0x20#8) := by
  induction n with
  | zero => simp
  | succ n ih =>
    obtain ⟨hl, hc, hs⟩ := ih
    rw [List.range_succ, List.flatMap_append, List.flatMap_singleton]
    refine ⟨?_, fun i hi => ?_, fun k hk => ?_⟩
    · rw [List.length_append, hl]
      unfold State.displayBit
      split <;> simp <;> omega
    · rcases Nat.lt_or_ge i n with h | h
      · rw [List.getD_append _ _ _ _ (by omega), hc i h]
      · obtain rfl : i = n := by omega
        rw [List.getD_append_right _ _ _ _ (by omega), hl]
        unfold State.displayBit
        split
        · rw [show i + i / 8 + 1 - (i + (i + 7) / 8) = 1 by omega]; rfl
        · rw [show i + i / 8 + 1 - (i + (i + 7) / 8) = 0 by omega]; rfl
    · rcases Nat.lt_or_ge (8 * k) n with h | h
      · rw [List.getD_append _ _ _ _ (by omega), hs k h]
      · obtain rfl : n = 8 * k := by omega
        rw [List.getD_append_right _ _ _ _ (by omega), hl]
        unfold State.displayBit
        rw [if_pos (by omega), show 9 * k - (8 * k + (8 * k + 7) / 8) = 0 by omega]; rfl

/-- Clearing sets every byte inside the capacity to 0x00 and no other. -/
theorem State.read_clear (s : State) (a : Nat) :
    Memory.read s.clear.data a = if a < s.cap then 0x00#8 else Memory.read s.data a := by
  simp only [State.clear, State.setCur, Memory.read_writeBytes, List.length_replicate]
  by_cases h : a < s.cap
  · simp [h, List.getD_eq_getElem?_getD]
  · simp [h]

/-- An address above every listed one reads as unlisted. -/
theorem Memory.read_above {m : List Host.Cell} {n a : Nat} (h : ∀ c ∈ m, c.1 < n) (ha : n ≤ a) :
    Memory.read m a = Memory.unlisted := by
  induction m with
  | nil => rfl
  | cons c m ih =>
    have := h c (by simp)
    rw [show c = (c.1, c.2) from rfl, Memory.read_cons, if_neg (by omega), ih fun d hd => h d (by simp [hd])]

/-- Clearing a canonical storage inside the capacity leaves nothing listed. -/
theorem State.clear_data {s : State} (hw : Memory.wf s.data) (hb : ∀ c ∈ s.data, c.1 < s.cap) : s.clear.data = [] := by
  refine Memory.wf_ext (Memory.writeBytes_wf _ hw 0) ⟨by simp, by simp⟩ fun a => ?_
  rw [State.read_clear]
  by_cases h : a < s.cap
  · rw [if_pos h]; rfl
  · rw [if_neg h, Memory.read_above hb (by omega)]; rfl

end Sys2Proof.Machine
end

