-- ==== Sys2Proof/Tests/Slice0.lean ====
section
/-! SUPPORT. Tests. The expected values of the command tests are rows of 95_test_vectors.md, named V<n>; the words of the
decode tests are written out from the encoding of 30_encoding.md. A theorem `test_hyps_<statement>` shows, for each clause
of a statement of the obligations file, a state and operands that meet the clause's hypotheses, at the edge of its
range. -/

namespace Sys2Proof.Machine.Tests

open Sys2Proof Sys2Proof.Machine

/-- An instance with the given storage and CURSOR, and the given operands at its port. -/
def box (cap : Nat) (data : List Byte) (cursor opa : BitVec 32) (opb : BitVec 64) (inp : List Byte) : State :=
  { State.allocate cap with
    data := Memory.writeBytes [] 0 data
    cursor := cursor
    packet := { cmd := 0#32, opa := opa, opb := opb, inp := inp } }

/-- The last six columns of a row of 95_test_vectors.md. -/
structure Row where
  status : BitVec 8
  data : List Byte
  cursor : Nat
  res : BitVec 64
  res2 : BitVec 32
  out : List Byte
deriving DecidableEq, Repr

/-- The row after one step that presents the port's operands under a command word. -/
def after (cmd : CmdWord) (s : State) : Option Row :=
  match step { s with script := [{ s.packet with cmd := cmd }] } with
  | .next t => some ⟨t.status, Memory.readBytes t.data 0 t.cap, t.cur, t.res, t.res2, t.out⟩
  | .fault _ | .refused _ => none

/-- STATUS after a command on the port's operands. -/
def statusOf (i : Instr) (s : State) : Option (BitVec 8) :=
  match exec i s with
  | .next t => some t.status
  | .fault _ | .refused _ => none

/-! ### Well-formedness -/

/-- R8: 1 to 2^29 - 1 bytes. -/
theorem test_capacity_limits :
    capacityOk 0 = false ∧ capacityOk 1 = true ∧ capacityOk 536870911 = true ∧ capacityOk 536870912 = false := by
  decide

/-- R17: IN holds at most 2^32 - 1 bytes. -/
theorem test_packet_limit (inp : List Byte) (h : inp.length = 4294967296) :
    Packet.WellFormed { cmd := 0#32, opa := 0#32, opb := 0#64, inp := inp } = false ∧
    Packet.WellFormed { cmd := 0#32, opa := 0#32, opb := 0#64, inp := inp.tail } = true := by
  simp [Packet.WellFormed, h]

/-- R51: one width too many for each command that counts bits. -/
theorem test_ill_formed_widths :
    Instr.WellFormed (.setUint 33#7) = false ∧ Instr.WellFormed (.getUint 33#7) = false ∧
    Instr.WellFormed (.getInt16Msb 16#7) = false ∧ Instr.WellFormed (.readField 65#7) = false ∧
    Instr.WellFormed (.writeField 65#7) = false := by
  decide

/-- R51: the widest of each. -/
theorem test_well_formed_widths :
    Instr.WellFormed (.setUint 32#7) = true ∧ Instr.WellFormed (.getUint 32#7) = true ∧
    Instr.WellFormed (.getInt16Msb 15#7) = true ∧ Instr.WellFormed (.readField 64#7) = true ∧
    Instr.WellFormed (.writeField 64#7) = true := by
  decide

/-! ### Decoding: `OPC << 24 | V << 22 | NB << 15` written out (R49, R54) -/

theorem test_decode_positional :
    decode 0x01000000#32 = .ok .getBit ∧ decode 0x02000000#32 = .ok .getBitHl ∧
    decode 0x03800000#32 = .ok (.setBit .low) ∧ decode 0x04400000#32 = .ok (.findFirstBit .one) ∧
    decode 0x05000000#32 = .ok .nthSetBit := by
  decide

theorem test_decode_sequential_bits :
    decode 0x10C00000#32 = .ok (.setNextBit .high) ∧ decode 0x11000000#32 = .ok .getNextBitHl ∧
    decode 0x12000000#32 = .ok .setBits ∧ decode 0x16000000#32 = .ok (.fill .zero) ∧
    decode 0x17000000#32 = .ok .sparePadding := by
  decide

theorem test_decode_sequential_integers :
    decode 0x13018000#32 = .ok (.setUint 3#7) ∧ decode 0x14008000#32 = .ok (.getUint 1#7) ∧
    decode 0x15028000#32 = .ok (.getInt16Msb 5#7) ∧ decode 0x1A200000#32 = .ok (.readField 64#7) ∧
    decode 0x1B3F8000#32 = .ok (.writeField 127#7) := by
  decide

theorem test_decode_sequential_bytes :
    decode 0x18000000#32 = .ok .getBytes ∧ decode 0x19000000#32 = .ok .setBytes ∧ decode 0x1C000000#32 = .ok .unhex := by
  decide

theorem test_decode_whole_buffer :
    decode 0x20000000#32 = .ok .zero ∧ decode 0x21000000#32 = .ok .pack ∧ decode 0x22000000#32 = .ok .unpack ∧
    decode 0x23000000#32 = .ok .display ∧ decode 0x24400000#32 = .ok (.runLength true) ∧
    decode 0x25000000#32 = .ok .shiftLeft := by
  decide

/-- R56: the words of V114 to V122. -/
theorem test_decode_rejects :
    decode 0x00000000#32 = .error .opcode ∧ decode 0x06000000#32 = .error .opcode ∧
    decode 0xFF000000#32 = .error .opcode ∧ decode 0x20000001#32 = .error .reserved ∧
    decode 0x01400000#32 = .error .valueField ∧ decode 0x01008000#32 = .error .countField ∧
    decode 0x03408000#32 = .error .countField ∧ decode 0x13408000#32 = .error .valueField ∧
    decode 0x24800000#32 = .error .valueField := by
  decide

/-- The host's two entries: the decoder on a table word, and the first step after reset on a placed word (E7, `SET_UINT 3`). -/
theorem test_table_word_runs :
    decodeTableWord 32 0x13018000 = some (.setUint 3#7) ∧
    (match step (State.reset.withFetchWord 32 0x13018000) with
      | .next t => decide (t.status = 0#8 ∧ t.cur = 3)
      | .fault _ | .refused _ => false) = true ∧
    (match step (State.reset.withFetchWord 32 0x22000000) with
      | .next t => decide (t.status = 0#8)
      | .fault _ | .refused _ => false) = true := by
  decide

/-! ### The assembler (R60, R61) -/

theorem test_assemble_numbers :
    assembleLine 0#32 "SET_UINT 3, 0b101" = some { cmd := 0x13018000#32, opa := 0#32, opb := 5#64, inp := [] } ∧
    assembleLine 0#32 "WRITE_FIELD 3, 4, 0xF" = some { cmd := 0x1B020000#32, opa := 3#32, opb := 15#64, inp := [] } ∧
    assembleLine 0#32 "GET_UINT 128" = none := by
  decide

theorem test_assemble_lists :
    assembleLine 0#32 "set_bits [one, 0, L, high]"
      = some { cmd := 0x12000000#32, opa := 4#32, opb := 0#64, inp := [1#8, 0#8, 2#8, 3#8] } ∧
    assembleLine 0#32 "UNHEX \"ABCD\""
      = some { cmd := 0x1C000000#32, opa := 0#32, opb := 0#64, inp := [0x41#8, 0x42#8, 0x43#8, 0x44#8] } ∧
    assembleLine 0#32 "ZERO 1" = none := by
  decide

theorem test_assemble_pseudo :
    assembleLine 0#32 "SETCUR 16" = some { cmd := 0x1A000000#32, opa := 16#32, opb := 0#64, inp := [] } ∧
    assembleLine 9#32 "GET_BIT_AT_CURSOR" = some { cmd := 0x01000000#32, opa := 9#32, opb := 0#64, inp := [] } ∧
    assembleLine 0#32 "PAD_TO 16" = some { cmd := 0x17000000#32, opa := 15#32, opb := 0#64, inp := [] } := by
  decide

/-- The least and the greatest operand that PAD_TO can have, and those past them (log entry 9). -/
theorem test_assemble_pad_to_limits :
    assembleLine 0#32 "PAD_TO 0" = none ∧
    assembleLine 0#32 "PAD_TO 1" = some { cmd := 0x17000000#32, opa := 0#32, opb := 0#64, inp := [] } ∧
    assembleLine 0#32 "PAD_TO 4294967296" = some { cmd := 0x17000000#32, opa := 0xFFFFFFFF#32, opb := 0#64, inp := [] } ∧
    assembleLine 0#32 "PAD_TO 4294967297" = none := by
  decide

/-- R60: `t` is spelled `zero` or `one`; the digits are spellings of `v`. -/
theorem test_assemble_target :
    assembleLine 0#32 "RUN_LENGTH one" = some { cmd := 0x24400000#32, opa := 0#32, opb := 0#64, inp := [] } ∧
    assembleLine 0#32 "RUN_LENGTH 1" = none ∧
    assembleLine 0#32 "SET_NEXT_BIT 1" = some { cmd := 0x10400000#32, opa := 0#32, opb := 0#64, inp := [] } := by
  decide

/-! ### Commands, one step each -/

/-- 40_positional.md R63: V5, V6. -/
theorem test_getBit :
    after 0x01000000#32 (box 2 [0x00#8, 0x01#8] 0#32 15#32 0#64 [])
      = some ⟨0#8, [0x00#8, 0x01#8], 0, 0x1#64, 0#32, []⟩ ∧
    after 0x01000000#32 (box 2 [0x00#8, 0x01#8] 0#32 16#32 0#64 [])
      = some ⟨1#8, [0x00#8, 0x01#8], 0, 0#64, 0#32, []⟩ := by
  decide

/-- R64: V8, V9, V11. -/
theorem test_getBitHl :
    after 0x02000000#32 (box 1 [0x00#8] 0#32 2#32 0#64 [])
      = some ⟨0#8, [0x00#8], 0, 0x3#64, 0#32, []⟩ ∧
    after 0x02000000#32 (box 1 [0x2B#8] 0#32 7#32 0#64 [])
      = some ⟨0#8, [0x2B#8], 0, 0x2#64, 0#32, []⟩ ∧
    after 0x02000000#32 (box 1 [0x00#8] 0#32 8#32 0#64 [])
      = some ⟨1#8, [0x00#8], 0, 0#64, 0#32, []⟩ := by
  decide

/-- R65: V13, V16, V18. -/
theorem test_setBit :
    after 0x03800000#32 (box 1 [0x01#8] 0#32 2#32 0#64 [])
      = some ⟨0#8, [0x21#8], 0, 0#64, 0#32, []⟩ ∧
    after 0x03C00000#32 (box 1 [0xFF#8] 0#32 7#32 0#64 [])
      = some ⟨0#8, [0xFE#8], 0, 0#64, 0#32, []⟩ ∧
    after 0x03400000#32 (box 1 [0x00#8] 0#32 8#32 0#64 [])
      = some ⟨1#8, [0x00#8], 0, 0#64, 0#32, []⟩ := by
  decide

/-- R66: V20, V24, V25. -/
theorem test_findFirstBit :
    after 0x04400000#32 (box 2 [0x00#8, 0x24#8] 0#32 11#32 0#64 [])
      = some ⟨0#8, [0x00#8, 0x24#8], 0, 0xd#64, 0#32, []⟩ ∧
    after 0x04400000#32 (box 1 [0xFF#8] 0#32 8#32 0#64 [])
      = some ⟨3#8, [0xFF#8], 0, 0#64, 0#32, []⟩ ∧
    after 0x04800000#32 (box 1 [0x2B#8] 0#32 0#32 0#64 [])
      = some ⟨3#8, [0x2B#8], 0, 0#64, 0#32, []⟩ := by
  decide

/-- R67: V27, V28, V29. -/
theorem test_nthSetBit :
    after 0x05000000#32 (box 2 [0x00#8, 0x24#8] 0#32 2#32 0#64 [])
      = some ⟨0#8, [0x00#8, 0x24#8], 0, 0xd#64, 0#32, []⟩ ∧
    after 0x05000000#32 (box 2 [0x00#8, 0x24#8] 0#32 3#32 0#64 [])
      = some ⟨3#8, [0x00#8, 0x24#8], 0, 0#64, 0#32, []⟩ ∧
    after 0x05000000#32 (box 2 [0x00#8, 0x24#8] 0#32 0#32 0#64 [])
      = some ⟨3#8, [0x00#8, 0x24#8], 0, 0#64, 0#32, []⟩ := by
  decide

/-- 41_sequential.md R69: V31, V33. -/
theorem test_setNextBit :
    after 0x10400000#32 (box 1 [0x00#8] 0#32 0#32 0#64 [])
      = some ⟨0#8, [0x80#8], 1, 0#64, 0#32, []⟩ ∧
    after 0x10400000#32 (box 1 [0x00#8] 8#32 0#32 0#64 [])
      = some ⟨1#8, [0x00#8], 8, 0#64, 0#32, []⟩ := by
  decide

/-- R70: V35, V36. -/
theorem test_getNextBitHl :
    after 0x11000000#32 (box 1 [0x00#8] 2#32 0#32 0#64 [])
      = some ⟨0#8, [0x00#8], 3, 0x3#64, 0#32, []⟩ ∧
    after 0x11000000#32 (box 1 [0x00#8] 8#32 0#32 0#64 [])
      = some ⟨1#8, [0x00#8], 8, 0#64, 0#32, []⟩ := by
  decide

/-- R71: V37, V38, V40, V41. -/
theorem test_setBits :
    after 0x12000000#32 (box 1 [0x00#8] 0#32 4#32 0#64 [0x01#8, 0x00#8, 0x02#8, 0x03#8])
      = some ⟨0#8, [0xB0#8], 4, 0#64, 0#32, []⟩ ∧
    after 0x12000000#32 (box 1 [0x00#8] 6#32 3#32 0#64 [0x01#8, 0x01#8, 0x01#8])
      = some ⟨1#8, [0x03#8], 8, 0#64, 0#32, []⟩ ∧
    after 0x12000000#32 (box 1 [0x00#8] 0#32 1#32 0#64 [0xFD#8])
      = some ⟨0#8, [0x80#8], 1, 0#64, 0#32, []⟩ ∧
    after 0x12000000#32 (box 1 [0x00#8] 0#32 2#32 0#64 [0x01#8])
      = some ⟨5#8, [0x00#8], 0, 0#64, 0#32, []⟩ := by
  decide

/-- R72: V43, V46, V48, V49. -/
theorem test_setUint :
    after 0x13010000#32 (box 2 [0xA0#8, 0x00#8] 3#32 0#32 0x3#64 [])
      = some ⟨0#8, [0xB8#8, 0x00#8], 5, 0#64, 0#32, []⟩ ∧
    after 0x13100000#32 (box 1 [0x00#8] 0#32 0#32 0xffffffff#64 [])
      = some ⟨1#8, [0xFF#8], 8, 0#64, 0#32, []⟩ ∧
    after 0x13040000#32 (box 4 [0x00#8, 0x00#8, 0x00#8, 0x00#8] 0#32 0#32 0x1000000ab#64 [])
      = some ⟨0#8, [0xAB#8, 0x00#8, 0x00#8, 0x00#8], 8, 0#64, 0#32, []⟩ ∧
    after 0x13108000#32 (box 4 [0x00#8, 0x00#8, 0x00#8, 0x00#8] 0#32 0#32 0x1#64 [])
      = some ⟨2#8, [0x00#8, 0x00#8, 0x00#8, 0x00#8], 0, 0#64, 0#32, []⟩ := by
  decide

/-- R73: V52, V53, V55. -/
theorem test_getUint :
    after 0x14020000#32 (box 1 [0xA5#8] 2#32 0#32 0#64 [])
      = some ⟨0#8, [0xA5#8], 6, 0x9#64, 0#32, []⟩ ∧
    after 0x14020000#32 (box 1 [0xA5#8] 6#32 0#32 0#64 [])
      = some ⟨1#8, [0xA5#8], 8, 0#64, 0#32, []⟩ ∧
    after 0x14140000#32 (box 1 [0xA5#8] 0#32 0#32 0#64 [])
      = some ⟨2#8, [0xA5#8], 0, 0#64, 0#32, []⟩ := by
  decide

/-- R74: V56 to V59. -/
theorem test_getInt16Msb :
    after 0x15028000#32 (box 2 [0xB8#8, 0x00#8] 5#32 0#32 0#64 [])
      = some ⟨0#8, [0xB8#8, 0x00#8], 5, 0x17#64, 0#32, []⟩ ∧
    after 0x15030000#32 (box 2 [0xB8#8, 0x00#8] 5#32 0#32 0#64 [])
      = some ⟨2#8, [0xB8#8, 0x00#8], 5, 0#64, 0#32, []⟩ ∧
    after 0x15078000#32 (box 2 [0xAB#8, 0xCD#8] 16#32 0#32 0#64 [])
      = some ⟨0#8, [0xAB#8, 0xCD#8], 16, 0x55e6#64, 0#32, []⟩ ∧
    after 0x15080000#32 (box 2 [0xAB#8, 0xCD#8] 16#32 0#32 0#64 [])
      = some ⟨2#8, [0xAB#8, 0xCD#8], 16, 0#64, 0#32, []⟩ := by
  decide

/-- R75: V64, V65. -/
theorem test_fill :
    after 0x16800000#32 (box 2 [0x00#8, 0x00#8] 4#32 8#32 0#64 [])
      = some ⟨0#8, [0x0B#8, 0x20#8], 12, 0#64, 0#32, []⟩ ∧
    after 0x16400000#32 (box 1 [0x00#8] 4#32 6#32 0#64 [])
      = some ⟨1#8, [0x0F#8], 8, 0#64, 0#32, []⟩ := by
  decide

/-- R76: V67, V68, V70. -/
theorem test_sparePadding :
    after 0x17000000#32 (box 2 [0xB8#8, 0x00#8] 5#32 15#32 0#64 [])
      = some ⟨0#8, [0xBB#8, 0x2B#8], 16, 0#64, 0#32, []⟩ ∧
    after 0x17000000#32 (box 2 [0xB8#8, 0x00#8] 5#32 4#32 0#64 [])
      = some ⟨0#8, [0xB8#8, 0x00#8], 5, 0#64, 0#32, []⟩ ∧
    after 0x17000000#32 (box 2 [0xB8#8, 0x00#8] 5#32 20#32 0#64 [])
      = some ⟨1#8, [0xBB#8, 0x2B#8], 16, 0#64, 0#32, []⟩ := by
  decide

/-- R77: V72, V74. -/
theorem test_getBytes :
    after 0x18000000#32 (box 2 [0xAB#8, 0xCD#8] 4#32 1#32 0#64 [])
      = some ⟨0#8, [0xAB#8, 0xCD#8], 12, 0#64, 0#32, [0xBC#8]⟩ ∧
    after 0x18000000#32 (box 2 [0xAB#8, 0xCD#8] 4#32 2#32 0#64 [])
      = some ⟨1#8, [0xAB#8, 0xCD#8], 4, 0#64, 0#32, []⟩ := by
  decide

/-- R78: V76, V78. -/
theorem test_setBytes :
    after 0x19000000#32 (box 2 [0xFF#8, 0xFF#8] 4#32 1#32 0#64 [0x00#8])
      = some ⟨0#8, [0xF0#8, 0x0F#8], 12, 0#64, 0#32, []⟩ ∧
    after 0x19000000#32 (box 2 [0xFF#8, 0xFF#8] 9#32 1#32 0#64 [0x00#8])
      = some ⟨1#8, [0xFF#8, 0xFF#8], 9, 0#64, 0#32, []⟩ := by
  decide

/-- R79: V79 to V81, V83. -/
theorem test_readField :
    after 0x1A040000#32 (box 2 [0xAB#8, 0xCD#8] 0#32 4#32 0#64 [])
      = some ⟨0#8, [0xAB#8, 0xCD#8], 12, 0xbc#64, 12#32, []⟩ ∧
    after 0x1A000000#32 (box 2 [0xAB#8, 0xCD#8] 12#32 17#32 0#64 [])
      = some ⟨1#8, [0xAB#8, 0xCD#8], 12, 0#64, 17#32, []⟩ ∧
    after 0x1A040000#32 (box 2 [0xAB#8, 0xCD#8] 12#32 12#32 0#64 [])
      = some ⟨1#8, [0xAB#8, 0xCD#8], 16, 0#64, 12#32, []⟩ ∧
    after 0x1A208000#32 (box 2 [0xAB#8, 0xCD#8] 3#32 0#32 0#64 [])
      = some ⟨2#8, [0xAB#8, 0xCD#8], 3, 0#64, 0#32, []⟩ := by
  decide

/-- R80: V84, V85. -/
theorem test_writeField :
    after 0x1B020000#32 (box 2 [0x00#8, 0x00#8] 0#32 3#32 0xf#64 [])
      = some ⟨0#8, [0x1E#8, 0x00#8], 7, 0#64, 7#32, []⟩ ∧
    after 0x1B020000#32 (box 2 [0x1E#8, 0x00#8] 7#32 14#32 0xf#64 [])
      = some ⟨1#8, [0x1E#8, 0x03#8], 16, 0#64, 14#32, []⟩ := by
  decide

/-- R81: V88. -/
theorem test_unhex :
    after 0x1C000000#32 (box 2 [0x00#8, 0x00#8] 0#32 0#32 0#64 [0x41#8, 0x42#8, 0x43#8, 0x44#8])
      = some ⟨0#8, [0xAB#8, 0xCD#8], 16, 0#64, 0#32, []⟩ := by
  decide

/-- R81: V89, V94. -/
theorem test_unhex_short :
    after 0x1C000000#32 (box 2 [0x00#8, 0x00#8] 0#32 0#32 0#64 [0x41#8, 0x42#8])
      = some ⟨4#8, [0xAB#8, 0x00#8], 8, 0#64, 0#32, []⟩ ∧
    after 0x1C000000#32 (box 2 [0x55#8, 0x55#8] 3#32 0#32 0#64 [])
      = some ⟨4#8, [0x55#8, 0x55#8], 3, 0#64, 0#32, []⟩ := by
  decide

/-- 42_whole_buffer.md R83: V95, V123. -/
theorem test_zero :
    after 0x20000000#32 (box 2 [0xAB#8, 0xCD#8] 3#32 0#32 0#64 [])
      = some ⟨0#8, [0x00#8, 0x00#8], 0, 0#64, 0#32, []⟩ ∧
    after 0x20000000#32 (box 1 [0x5A#8] 3#32 0#32 0#64 [0x00#8])
      = some ⟨5#8, [0x5A#8], 3, 0#64, 0#32, []⟩ := by
  decide

/-- R84: V96. -/
theorem test_pack :
    after 0x21000000#32 (box 2 [0xAB#8, 0xCD#8] 7#32 0#32 0#64 [])
      = some ⟨0#8, [0xAB#8, 0xCD#8], 7, 0#64, 0#32, [0xAB#8, 0xCD#8]⟩ := by
  decide

/-- R85: V97, V98. -/
theorem test_unpack :
    after 0x22000000#32 (box 2 [0x00#8, 0x00#8] 3#32 0#32 0#64 [0xAB#8, 0xCD#8])
      = some ⟨0#8, [0xAB#8, 0xCD#8], 3, 0#64, 0#32, []⟩ ∧
    after 0x22000000#32 (box 2 [0x00#8, 0x00#8] 3#32 0#32 0#64 [0x01#8])
      = some ⟨5#8, [0x00#8, 0x00#8], 3, 0#64, 0#32, []⟩ := by
  decide

/-- R86: V99, V100. -/
theorem test_display :
    after 0x23000000#32 (box 2 [0xB8#8, 0x00#8] 10#32 0#32 0#64 [])
      = some ⟨0#8, [0xB8#8, 0x00#8], 10, 0#64, 0#32,
          [0x20#8, 0x31#8, 0x30#8, 0x31#8, 0x31#8, 0x31#8, 0x30#8, 0x30#8, 0x30#8, 0x20#8, 0x30#8, 0x30#8]⟩ ∧
    after 0x23000000#32 (box 2 [0xB8#8, 0x00#8] 0#32 0#32 0#64 [])
      = some ⟨0#8, [0xB8#8, 0x00#8], 0, 0#64, 0#32, []⟩ := by
  decide

/-- R87: V102, V104. -/
theorem test_runLength :
    after 0x24400000#32 (box 2 [0xF0#8, 0x00#8] 16#32 0#32 0#64 [])
      = some ⟨0#8, [0xF0#8, 0x00#8], 16, 0x4#64, 0#32, []⟩ ∧
    after 0x24400000#32 (box 2 [0xF0#8, 0x00#8] 3#32 0#32 0#64 [])
      = some ⟨0#8, [0xF0#8, 0x00#8], 3, 0x3#64, 0#32, []⟩ := by
  decide

/-- R88: V109, V111, V112. -/
theorem test_shiftLeft :
    after 0x25000000#32 (box 2 [0xAB#8, 0xCD#8] 16#32 9#32 0#64 [])
      = some ⟨0#8, [0x9A#8, 0x00#8], 7, 0#64, 0#32, []⟩ ∧
    after 0x25000000#32 (box 2 [0xAB#8, 0xCD#8] 0#32 0#32 0#64 [])
      = some ⟨0#8, [0xAB#8, 0xCD#8], 0, 0#64, 0#32, []⟩ ∧
    after 0x25000000#32 (box 2 [0xAB#8, 0xCD#8] 0#32 3#32 0#64 [])
      = some ⟨0#8, [0x00#8, 0x00#8], 0, 0#64, 0#32, []⟩ := by
  decide

/-- 30_encoding.md R56: V114, V117, V120, V122. -/
theorem test_illegal_words :
    after 0x00000000#32 (box 1 [0x5A#8] 3#32 0#32 0#64 [])
      = some ⟨5#8, [0x5A#8], 3, 0#64, 0#32, []⟩ ∧
    after 0x20000001#32 (box 1 [0x5A#8] 3#32 0#32 0#64 [])
      = some ⟨5#8, [0x5A#8], 3, 0#64, 0#32, []⟩ ∧
    after 0x03408000#32 (box 1 [0x5A#8] 3#32 0#32 0#64 [])
      = some ⟨5#8, [0x5A#8], 3, 0#64, 0#32, []⟩ ∧
    after 0x24800000#32 (box 1 [0x5A#8] 3#32 0#32 0#64 [])
      = some ⟨5#8, [0x5A#8], 3, 0#64, 0#32, []⟩ := by
  decide


/-! ### States that meet the hypotheses of the statements -/

theorem test_hyps_DecodeSelectsTheMatchingRow :
    decode 0x24400000#32 = .ok (.runLength true) ∧
    (0x24400000#32 &&& rowMask (.runLength false) = rowMatch (.runLength false)) ∧
    decode 0x24800000#32 = .error .valueField ∧
    ∀ v : BitVal, 0x24800000#32 &&& rowMask (.setBit v) ≠ rowMatch (.setBit v) := by
  refine ⟨by decide, by decide, by decide, fun v => by cases v <;> decide⟩

/-- A word that no row matches, with a state that presents it. -/
theorem test_hyps_DecodeSelectsTheMatchingRow_none (i : Instr) :
    0x06000000#32 &&& rowMask i ≠ rowMatch i ∧
    { State.reset with script := [{ cmd := 0x06000000#32, opa := 0#32, opb := 0#64, inp := [] }] }.script
      = { cmd := 0x06000000#32, opa := 0#32, opb := 0#64, inp := [] } :: [] := by
  refine ⟨?_, rfl⟩
  cases i <;> simp only [rowMask, rowMatch] <;> decide

theorem test_hyps_StepRunsTheDecodedCommand :
    { State.reset with script := [packetOf .pack 0#32 0#64 []] }.script = packetOf .pack 0#32 0#64 [] :: [] ∧
    decode (packetOf .pack 0#32 0#64 []).cmd = .ok .pack := by
  decide

theorem test_hyps_IdleBlockKeepsItsState : State.reset.script = [] := by
  decide

/-- R94: a word that does not decode, and a command with one byte of IN too many. -/
theorem test_hyps_IllegalPacketChangesNothing :
    decode 0x01400000#32 = .error .valueField ∧
    decode (packetOf .pack 0#32 0#64 [0#8]).cmd = .ok .pack ∧
    ¬ FramedBy { State.reset with packet := packetOf .pack 0#32 0#64 [0#8], script := [] } .pack := by
  refine ⟨by decide, by decide, by simp [FramedBy, State.inp, packetOf]⟩

/-- R57: SET_BITS with one entry too few, UNPACK with one byte too few, ZERO with a byte. -/
theorem test_hyps_BadFramingIsIllegal :
    ¬ FramedBy (box 1 [] 0#32 2#32 0#64 [1#8]) .setBits ∧ ¬ FramedBy (box 2 [] 0#32 0#32 0#64 [1#8]) .unpack ∧
    ¬ FramedBy (box 1 [] 0#32 0#32 0#64 [0#8]) .zero := by
  refine ⟨by simp [FramedBy, box, State.inp, State.opa], by simp [FramedBy, box, State.inp, State.allocate],
    by simp [FramedBy, box, State.inp]⟩

theorem test_hyps_CommandKeepsCapacityAndPort :
    ∃ t, exec .zero (box 1 [0x5A#8] 3#32 0#32 0#64 []) = .next t :=
  ⟨_, rfl⟩

/-- R8: the least and the greatest capacity. -/
theorem test_hyps_AllocationMeetsTheInvariant :
    capacityOk 1 = true ∧ capacityOk 536870911 = true ∧ Memory.wf State.reset.data := by
  decide

/-- An instance with CURSOR at `NBITS` and a failure in its response, which its next step mends. -/
theorem test_hyps_StepKeepsTheInvariant :
    { box 1 [0x5A#8] 8#32 0#32 0#64 [] with status := 1#8, script := [packetOf .zero 0#32 0#64 []] }.Inv ∧
    ∃ t, step { box 1 [0x5A#8] 8#32 0#32 0#64 [] with status := 1#8, script := [packetOf .zero 0#32 0#64 []] }
      = .next t :=
  ⟨by decide, _, rfl⟩

theorem test_hyps_CursorStaysWithinCapacity :
    capacityOk (box 536870911 [] 4294967288#32 0#32 0#64 []).cap = true ∧
    (box 536870911 [] 4294967288#32 0#32 0#64 []).cur ≤ (box 536870911 [] 4294967288#32 0#32 0#64 []).nbits ∧
    ∃ t, step (box 536870911 [] 4294967288#32 0#32 0#64 []) = .next t :=
  ⟨by decide, by decide, _, rfl⟩

theorem test_hyps_ZeroEqualsAllocation :
    (box 2 [0xAB#8, 0xCD#8] 16#32 0#32 0#64 []).Inv ∧ (box 2 [0xAB#8, 0xCD#8] 16#32 0#32 0#64 []).inp = [] := by
  decide

/-- R98: a failure of the pair with an external cursor, one of another command, and ILLEGAL_COMMAND of the pair. -/
theorem test_hyps_FailureResponse :
    statusOf (.readField 0#7) (box 2 [0xAB#8, 0xCD#8] 12#32 17#32 0#64 []) = some 1#8 ∧
    statusOf .getBit (box 1 [] 0#32 8#32 0#64 []) = some 1#8 ∧
    statusOf (.writeField 4#7) (box 1 [] 0#32 3#32 0#64 [0#8]) = some 5#8 := by
  decide

/-- R58: OK and a failure. -/
theorem test_hyps_OutputLength :
    statusOf .getBytes (box 2 [0xAB#8, 0xCD#8] 4#32 1#32 0#64 []) = some 0#8 ∧
    statusOf .getBytes (box 2 [0xAB#8, 0xCD#8] 4#32 2#32 0#64 []) = some 1#8 := by
  decide

/-- R92: a state for each status, and the two failures of one command together (R95). -/
theorem test_hyps_StatusTable :
    (box 1 [0x5A#8] 8#32 1#32 0#64 []).Inv ∧ ¬ FramedBy (box 1 [0x5A#8] 8#32 1#32 0#64 []) .setBits ∧
    (FramedBy (box 1 [0x5A#8] 8#32 1#32 0#64 []) (.setUint 33#7) ∧
      InvalidArgumentWhen (box 1 [0x5A#8] 8#32 1#32 0#64 []) (.setUint 33#7) ∧
      OutOfRangeWhen (box 1 [0x5A#8] 8#32 1#32 0#64 []) (.setUint 33#7)) ∧
    (¬ InvalidArgumentWhen (box 1 [0x5A#8] 8#32 1#32 0#64 []) (.setUint 1#7) ∧
      OutOfRangeWhen (box 1 [0x5A#8] 8#32 1#32 0#64 []) (.setUint 1#7)) ∧
    NotFoundWhen (box 1 [0x5A#8] 8#32 5#32 0#64 []) .nthSetBit ∧
    MalformedInputWhen (box 1 [0x5A#8] 8#32 1#32 0#64 []) .unhex ∧
    (¬ InvalidArgumentWhen (box 1 [0x5A#8] 8#32 1#32 0#64 []) (.getUint 0#7) ∧
      ¬ OutOfRangeWhen (box 1 [0x5A#8] 8#32 1#32 0#64 []) (.getUint 0#7) ∧
      ¬ NotFoundWhen (box 1 [0x5A#8] 8#32 1#32 0#64 []) (.getUint 0#7) ∧
      ¬ MalformedInputWhen (box 1 [0x5A#8] 8#32 1#32 0#64 []) (.getUint 0#7)) := by
  simp only [FramedBy, InvalidArgumentWhen, OutOfRangeWhen, NotFoundWhen, MalformedInputWhen]
  exact ⟨by decide, by decide, by decide, by decide, by decide, ⟨0, by decide, by decide⟩, by decide⟩

theorem test_hyps_ReadingCommandsKeepData :
    WritesData .getBytes = false ∧ ∃ t, exec .getBytes (box 2 [0xAB#8, 0xCD#8] 4#32 1#32 0#64 []) = .next t :=
  ⟨rfl, _, rfl⟩

/-- A command of the row "never" of R19, and one that moves CURSOR but ends in ILLEGAL_COMMAND. -/
theorem test_hyps_CursorKeepingCommands :
    NeverWritesCursor .unpack = true ∧
    statusOf .unpack (box 2 [] 3#32 0#32 0#64 [0xAB#8, 0xCD#8]) = some 0#8 ∧
    statusOf .setBits (box 1 [] 3#32 1#32 0#64 []) = some 5#8 := by
  decide

/-- R33: the last byte of the storage. -/
theorem test_hyps_LowHighPatternBytes :
    (box 2 [] 8#32 8#32 0#64 []).Inv ∧ (box 2 [] 8#32 8#32 0#64 []).inp = [] ∧ 1 < (box 2 [] 8#32 8#32 0#64 []).cap ∧
    (box 2 [] 8#32 8#32 0#64 []).cur = 8 * 1 ∧ (box 2 [] 8#32 8#32 0#64 []).opa = 8 := by
  decide

/-- Index `NBITS - 1`, for the statements about a bit written and read back. -/
theorem test_hyps_HighLowSymmetry_and_SetBitThenGetBit :
    (box 2 [0xFF#8, 0xFF#8] 0#32 15#32 0#64 []).inp = [] ∧
    (box 2 [0xFF#8, 0xFF#8] 0#32 15#32 0#64 []).opa < (box 2 [0xFF#8, 0xFF#8] 0#32 15#32 0#64 []).nbits := by
  decide

/-- The last index and the first beyond it, for GetBitReads, GetBitHlReads and SetBitWrites. -/
theorem test_hyps_GetBitReads_GetBitHlReads_SetBitWrites :
    ((box 1 [0x80#8] 0#32 7#32 0#64 []).inp = [] ∧
      (box 1 [0x80#8] 0#32 7#32 0#64 []).opa < (box 1 [0x80#8] 0#32 7#32 0#64 []).nbits) ∧
    ((box 1 [0x80#8] 0#32 8#32 0#64 []).inp = [] ∧
      (box 1 [0x80#8] 0#32 8#32 0#64 []).nbits ≤ (box 1 [0x80#8] 0#32 8#32 0#64 []).opa) := by
  decide

/-- V20 at index 13, V24 from `NBITS` on, and V25. -/
theorem test_hyps_FindFirstBitScans :
    ((box 2 [0x00#8, 0x24#8] 0#32 11#32 0#64 []).opa ≤ 13 ∧
      13 < (box 2 [0x00#8, 0x24#8] 0#32 11#32 0#64 []).nbits ∧
      (box 2 [0x00#8, 0x24#8] 0#32 11#32 0#64 []).bitRead 13 = true ∧
      ∀ j, (box 2 [0x00#8, 0x24#8] 0#32 11#32 0#64 []).opa ≤ j → j < 13 →
        (box 2 [0x00#8, 0x24#8] 0#32 11#32 0#64 []).bitRead j ≠ true) ∧
    (∀ j, (box 1 [0xFF#8] 0#32 8#32 0#64 []).opa ≤ j → j < (box 1 [0xFF#8] 0#32 8#32 0#64 []).nbits →
      (box 1 [0xFF#8] 0#32 8#32 0#64 []).bitRead j ≠ true) ∧
    ((box 1 [0x2B#8] 0#32 0#32 0#64 []).inp = [] ∧ (BitVal.low = .low ∨ BitVal.low = .high)) := by
  refine ⟨⟨by decide, by decide, by decide, ?_⟩, fun j h1 h2 => absurd (Nat.lt_of_le_of_lt h1 h2) (by decide), by decide⟩
  have h : ∀ k, k < 2 → (box 2 [0x00#8, 0x24#8] 0#32 11#32 0#64 []).bitRead (11 + k) ≠ true := by decide
  intro j h1 h2
  obtain ⟨k, rfl⟩ := Nat.exists_eq_add_of_le h1
  exact h k (Nat.lt_of_add_lt_add_left (n := 11) (m := 2) h2)

/-- V27, one past the last 1 (V28), and 0 (V29). -/
theorem test_hyps_NthSetBitCounts :
    (13 < (box 2 [0x00#8, 0x24#8] 0#32 2#32 0#64 []).nbits ∧
      (box 2 [0x00#8, 0x24#8] 0#32 2#32 0#64 []).bitRead 13 = true ∧
      onesBelow (box 2 [0x00#8, 0x24#8] 0#32 2#32 0#64 []) 13 + 1 = (box 2 [0x00#8, 0x24#8] 0#32 2#32 0#64 []).opa) ∧
    onesBelow (box 2 [0x00#8, 0x24#8] 0#32 3#32 0#64 []) (box 2 [0x00#8, 0x24#8] 0#32 3#32 0#64 []).nbits
      < (box 2 [0x00#8, 0x24#8] 0#32 3#32 0#64 []).opa ∧
    (box 2 [0x00#8, 0x24#8] 0#32 0#32 0#64 []).opa = 0 := by
  decide

/-- The last index and `NBITS`, for SetNextBitWrites and GetNextBitHlReads. -/
theorem test_hyps_SetNextBitWrites_GetNextBitHlReads :
    (box 1 [] 7#32 0#32 0#64 []).inp = [] ∧
    (box 1 [] 7#32 0#32 0#64 []).cur < (box 1 [] 7#32 0#32 0#64 []).nbits ∧
    (box 1 [] 8#32 0#32 0#64 []).cur = (box 1 [] 8#32 0#32 0#64 []).nbits := by
  decide

/-- Two entries that just fit, three that do not (V38), and a count that IN does not match. -/
theorem test_hyps_SetBitsWritesEntries :
    ((box 1 [] 6#32 2#32 0#64 [1#8, 1#8]).Inv ∧
      (box 1 [] 6#32 2#32 0#64 [1#8, 1#8]).inp.length = (box 1 [] 6#32 2#32 0#64 [1#8, 1#8]).opa ∧
      (box 1 [] 6#32 2#32 0#64 [1#8, 1#8]).cur + (box 1 [] 6#32 2#32 0#64 [1#8, 1#8]).opa
        ≤ (box 1 [] 6#32 2#32 0#64 [1#8, 1#8]).nbits) ∧
    ((box 1 [] 6#32 3#32 0#64 [1#8, 1#8, 1#8]).Inv ∧
      (box 1 [] 6#32 3#32 0#64 [1#8, 1#8, 1#8]).inp.length = (box 1 [] 6#32 3#32 0#64 [1#8, 1#8, 1#8]).opa ∧
      (box 1 [] 6#32 3#32 0#64 [1#8, 1#8, 1#8]).nbits
        < (box 1 [] 6#32 3#32 0#64 [1#8, 1#8, 1#8]).cur + (box 1 [] 6#32 3#32 0#64 [1#8, 1#8, 1#8]).opa) ∧
    (box 1 [] 0#32 2#32 0#64 [1#8]).inp.length ≠ (box 1 [] 0#32 2#32 0#64 [1#8]).opa := by
  decide

/-- 32 bits that just fit, one bit too many, and 33 bits, for SetUintWrites and GetUintReads. -/
theorem test_hyps_SetUintWrites_GetUintReads :
    ((box 5 [] 8#32 0#32 0xFFFFFFFF#64 []).Inv ∧ (box 5 [] 8#32 0#32 0xFFFFFFFF#64 []).inp = [] ∧ (32#7).toNat ≤ 32 ∧
      (box 5 [] 8#32 0#32 0xFFFFFFFF#64 []).cur + (32#7).toNat ≤ (box 5 [] 8#32 0#32 0xFFFFFFFF#64 []).nbits) ∧
    ((box 5 [] 9#32 0#32 0xFFFFFFFF#64 []).Inv ∧ (box 5 [] 9#32 0#32 0xFFFFFFFF#64 []).inp = [] ∧
      (box 5 [] 9#32 0#32 0xFFFFFFFF#64 []).nbits < (box 5 [] 9#32 0#32 0xFFFFFFFF#64 []).cur + (32#7).toNat) ∧
    32 < (33#7).toNat := by
  decide

/-- `nb` at CURSOR and at 15, one more than CURSOR, and 16 (V56 to V59). -/
theorem test_hyps_GetInt16MsbReadsFromTheStart :
    (box 2 [0xAB#8, 0xCD#8] 16#32 0#32 0#64 []).inp = [] ∧
    ((15#7).toNat ≤ 15 ∧ (15#7).toNat ≤ (box 2 [0xAB#8, 0xCD#8] 16#32 0#32 0#64 []).cur) ∧
    ((5#7).toNat ≤ 15 ∧ (5#7).toNat ≤ (box 2 [0xB8#8, 0x00#8] 5#32 0#32 0#64 []).cur) ∧
    15 < (16#7).toNat ∧ (box 2 [0xB8#8, 0x00#8] 5#32 0#32 0#64 []).cur < (6#7).toNat ∧ 8 ≤ 8 ∧ (9 ≤ 9 ∧ 15 ≤ 15) := by
  decide

/-- A fill that just fits, and one bit more. -/
theorem test_hyps_FillWrites :
    ((box 1 [] 4#32 4#32 0#64 []).Inv ∧ (box 1 [] 4#32 4#32 0#64 []).inp = [] ∧
      (box 1 [] 4#32 4#32 0#64 []).cur + (box 1 [] 4#32 4#32 0#64 []).opa ≤ (box 1 [] 4#32 4#32 0#64 []).nbits) ∧
    ((box 1 [] 4#32 5#32 0#64 []).Inv ∧ (box 1 [] 4#32 5#32 0#64 []).inp = [] ∧
      (box 1 [] 4#32 5#32 0#64 []).nbits < (box 1 [] 4#32 5#32 0#64 []).cur + (box 1 [] 4#32 5#32 0#64 []).opa) := by
  decide

/-- V68 just below CURSOR, V69 at CURSOR, the last index, and `NBITS` with CURSOR there already. -/
theorem test_hyps_SparePaddingFillsLow :
    ((box 2 [] 5#32 4#32 0#64 []).inp = [] ∧ (box 2 [] 5#32 4#32 0#64 []).opa < (box 2 [] 5#32 4#32 0#64 []).cur) ∧
    ((box 2 [] 5#32 5#32 0#64 []).Inv ∧ (box 2 [] 5#32 5#32 0#64 []).cur ≤ (box 2 [] 5#32 5#32 0#64 []).opa ∧
      (box 2 [] 5#32 5#32 0#64 []).opa < (box 2 [] 5#32 5#32 0#64 []).nbits) ∧
    ((box 2 [] 5#32 15#32 0#64 []).cur ≤ (box 2 [] 5#32 15#32 0#64 []).opa ∧
      (box 2 [] 5#32 15#32 0#64 []).opa < (box 2 [] 5#32 15#32 0#64 []).nbits) ∧
    ((box 2 [] 16#32 16#32 0#64 []).Inv ∧ (box 2 [] 16#32 16#32 0#64 []).inp = [] ∧
      (box 2 [] 16#32 16#32 0#64 []).cur ≤ (box 2 [] 16#32 16#32 0#64 []).opa ∧
      (box 2 [] 16#32 16#32 0#64 []).nbits ≤ (box 2 [] 16#32 16#32 0#64 []).opa) := by
  decide

/-- One byte that just fits, aligned and not, and one bit too far, for GetBytesReads and SetBytesWrites. -/
theorem test_hyps_GetBytesReads_SetBytesWrites :
    ((box 2 [] 8#32 1#32 0#64 []).inp = [] ∧
      (box 2 [] 8#32 1#32 0#64 []).cur + 8 * (box 2 [] 8#32 1#32 0#64 []).opa ≤ (box 2 [] 8#32 1#32 0#64 []).nbits ∧
      (box 2 [] 8#32 1#32 0#64 []).cur % 8 = 0) ∧
    (box 2 [] 9#32 1#32 0#64 []).nbits < (box 2 [] 9#32 1#32 0#64 []).cur + 8 * (box 2 [] 9#32 1#32 0#64 []).opa ∧
    ((box 2 [] 7#32 1#32 0#64 [0#8]).inp.length = (box 2 [] 7#32 1#32 0#64 [0#8]).opa ∧
      (box 2 [] 7#32 1#32 0#64 [0#8]).cur + 8 * (box 2 [] 7#32 1#32 0#64 [0#8]).opa
        ≤ (box 2 [] 7#32 1#32 0#64 [0#8]).nbits) ∧
    ((box 2 [] 9#32 1#32 0#64 [0#8]).inp.length = (box 2 [] 9#32 1#32 0#64 [0#8]).opa ∧
      (box 2 [] 9#32 1#32 0#64 [0#8]).nbits
        < (box 2 [] 9#32 1#32 0#64 [0#8]).cur + 8 * (box 2 [] 9#32 1#32 0#64 [0#8]).opa) ∧
    (box 2 [] 0#32 1#32 0#64 []).inp.length ≠ (box 2 [] 0#32 1#32 0#64 []).opa := by
  decide

/-- A field of 64 bits that just fits, one bit too far, a start at `NBITS` and one past it, and 65 bits, for ReadFieldReads and
WriteFieldWrites. -/
theorem test_hyps_ReadFieldReads_WriteFieldWrites :
    ((box 9 [] 0#32 8#32 0#64 []).Inv ∧ (box 9 [] 0#32 8#32 0#64 []).inp = [] ∧ (64#7).toNat ≤ 64 ∧
      (box 9 [] 0#32 8#32 0#64 []).opa + (64#7).toNat ≤ (box 9 [] 0#32 8#32 0#64 []).nbits) ∧
    ((box 9 [] 0#32 9#32 0#64 []).Inv ∧
      (box 9 [] 0#32 9#32 0#64 []).opa ≤ (box 9 [] 0#32 9#32 0#64 []).nbits ∧
      (box 9 [] 0#32 9#32 0#64 []).nbits < (box 9 [] 0#32 9#32 0#64 []).opa + (64#7).toNat) ∧
    ((box 9 [] 0#32 72#32 0#64 []).Inv ∧
      (box 9 [] 0#32 72#32 0#64 []).opa + (0#7).toNat ≤ (box 9 [] 0#32 72#32 0#64 []).nbits) ∧
    (box 9 [] 0#32 73#32 0#64 []).nbits < (box 9 [] 0#32 73#32 0#64 []).opa ∧ 64 < (65#7).toNat := by
  decide

/-- V88, and a bad first and a bad last digit. -/
theorem test_hyps_UnhexLoadsDigits :
    ((box 1 [] 0#32 0#32 0#64 [0x41#8, 0x66#8]).Inv ∧
      (box 1 [] 0#32 0#32 0#64 [0x41#8, 0x66#8]).inp.length < 2 ^ 32 ∧
      ∀ k, k < 2 * (box 1 [] 0#32 0#32 0#64 [0x41#8, 0x66#8]).cap →
        hexDigit (charAt (box 1 [] 0#32 0#32 0#64 [0x41#8, 0x66#8]).inp k) ≠ none) ∧
    hexDigit (charAt (box 1 [] 0#32 0#32 0#64 []).inp 0) = none ∧
    (1 < 2 * (box 1 [] 0#32 0#32 0#64 [0x41#8, 0x67#8]).cap ∧
      (∀ j, j < 1 → hexDigit (charAt (box 1 [] 0#32 0#32 0#64 [0x41#8, 0x67#8]).inp j) ≠ none) ∧
      hexDigit (charAt (box 1 [] 0#32 0#32 0#64 [0x41#8, 0x67#8]).inp 1) = none) := by
  decide

/-- A byte just past each range of digits. -/
theorem test_hyps_UnhexLoadsDigits_characters :
    (10 ≤ 15 ∧ 15 < 16) ∧ hexDigit 0x3A#8 = none ∧ hexDigit 0x40#8 = none ∧ hexDigit 0x47#8 = none ∧
    hexDigit 0x60#8 = none ∧ hexDigit 0x67#8 = none := by
  decide

/-- An empty IN, and one of the capacity's length and of another, for ZeroClears, PackCopiesOut, UnpackCopiesIn and
DisplayRenders. -/
theorem test_hyps_ZeroClears_PackCopiesOut_UnpackCopiesIn_DisplayRenders :
    (box 2 [0xAB#8] 9#32 0#32 0#64 []).inp = [] ∧
    (box 2 [] 3#32 0#32 0#64 [0xAB#8, 0xCD#8]).inp.length = (box 2 [] 3#32 0#32 0#64 [0xAB#8, 0xCD#8]).cap ∧
    (box 2 [] 3#32 0#32 0#64 [0x01#8]).inp.length ≠ (box 2 [] 3#32 0#32 0#64 [0x01#8]).cap := by
  decide

/-- V102, a run that a bit ends, and V104, a run that CURSOR ends. -/
theorem test_hyps_RunLengthCounts :
    (4 ≤ (box 2 [0xF0#8] 16#32 0#32 0#64 []).cur ∧
      (∀ i, i < 4 → (box 2 [0xF0#8] 16#32 0#32 0#64 []).bitRead i = true) ∧
      (box 2 [0xF0#8] 16#32 0#32 0#64 []).bitRead 4 ≠ true) ∧
    (3 ≤ (box 2 [0xF0#8] 3#32 0#32 0#64 []).cur ∧
      (∀ i, i < 3 → (box 2 [0xF0#8] 3#32 0#32 0#64 []).bitRead i = true) ∧
      3 = (box 2 [0xF0#8] 3#32 0#32 0#64 []).cur) := by
  decide

/-- 0, `CURSOR - 1` and CURSOR. -/
theorem test_hyps_ShiftLeftMoves :
    ((box 2 [0xAB#8, 0xCD#8] 12#32 0#32 0#64 []).inp = [] ∧ (box 2 [0xAB#8, 0xCD#8] 12#32 0#32 0#64 []).opa = 0) ∧
    (0 < (box 2 [0xAB#8, 0xCD#8] 12#32 12#32 0#64 []).opa ∧
      (box 2 [0xAB#8, 0xCD#8] 12#32 12#32 0#64 []).cur ≤ (box 2 [0xAB#8, 0xCD#8] 12#32 12#32 0#64 []).opa) ∧
    (0 < (box 2 [0xAB#8, 0xCD#8] 12#32 11#32 0#64 []).opa ∧
      (box 2 [0xAB#8, 0xCD#8] 12#32 11#32 0#64 []).opa < (box 2 [0xAB#8, 0xCD#8] 12#32 11#32 0#64 []).cur) := by
  decide

/-- Three commands of 32 bits up to `NBITS`. -/
theorem test_hyps_IntegerRoundTrip :
    { box 4 [] 0#32 0#32 0#64 [] with
      script := [packetOf (.setUint 32#7) 0#32 0x12345678#64 [], packetOf (.readField 0#7) 0#32 0#64 [],
        packetOf (.getUint 32#7) 0#32 0#64 []] }.Inv ∧
    (32#7).toNat ≤ 32 ∧ (box 4 [] 0#32 0#32 0#64 []).cur + (32#7).toNat ≤ (box 4 [] 0#32 0#32 0#64 []).nbits ∧
    (box 4 [] 0#32 0#32 0#64 []).cursor = 0#32 := by
  decide

/-- A field of 64 bits up to `NBITS`. -/
theorem test_hyps_FieldRoundTrip :
    { box 9 [] 0#32 0#32 0#64 [] with
      script := [packetOf (.writeField 64#7) 8#32 0xFEDCBA9876543210#64 [],
        packetOf (.readField 64#7) 8#32 0#64 []] }.Inv ∧
    (64#7).toNat ≤ 64 ∧ (8#32).toNat + (64#7).toNat ≤ (box 9 [] 0#32 0#32 0#64 []).nbits := by
  decide

/-- E2. -/
theorem test_hyps_PackThenUnpackCopiesTheStorage :
    (box 2 [0xAB#8, 0xCD#8] 7#32 0#32 0#64 []).Inv ∧ (box 2 [0xAB#8, 0xCD#8] 7#32 0#32 0#64 []).inp = [] ∧
    ∃ t, exec .pack (box 2 [0xAB#8, 0xCD#8] 7#32 0#32 0#64 []) = .next t ∧ t.out = [0xAB#8, 0xCD#8] :=
  ⟨by decide, by decide, _, rfl, by decide⟩

/-- Shifts by 4 and by 7 under a CURSOR of 12. -/
theorem test_hyps_ShiftLeftComposes :
    (box 2 [0xAB#8, 0xCD#8] 12#32 0#32 0#64 []).Inv ∧
    (packetOf .shiftLeft 4#32 0#64 []).inp = [] ∧ (packetOf .shiftLeft 7#32 0#64 []).inp = [] ∧
    (packetOf .shiftLeft 11#32 0#64 []).opa.toNat
      = (packetOf .shiftLeft 4#32 0#64 []).opa.toNat + (packetOf .shiftLeft 7#32 0#64 []).opa.toNat ∧
    (packetOf .shiftLeft 11#32 0#64 []).opa.toNat < (box 2 [0xAB#8, 0xCD#8] 12#32 0#32 0#64 []).cur := by
  decide

/-- A state for the expansion of each pseudo-instruction, and SETCUR at `NBITS` and past it. -/
theorem test_hyps_PseudoInstructionEffects :
    (Pseudo.expand 0#32 (.setcur 16#32) = some (packetOf (.readField 0#7) 16#32 0#64 []) ∧
      capacityOk (box 2 [] 3#32 0#32 0#64 []).cap = true ∧ (16#32).toNat ≤ (box 2 [] 3#32 0#32 0#64 []).nbits ∧
      (box 2 [] 3#32 0#32 0#64 []).nbits < (17#32).toNat) ∧
    (Pseudo.expand 0#32 .getNextBit = some (packetOf (.getUint 1#7) 0#32 0#64 []) ∧
      Pseudo.expand 15#32 .getBitAtCursor = some (packetOf .getBit 15#32 0#64 []) ∧
      (box 2 [] 15#32 0#32 0#64 []).cursor = 15#32 ∧
      (box 2 [] 15#32 0#32 0#64 []).cur < (box 2 [] 15#32 0#32 0#64 []).nbits) ∧
    (Pseudo.expand 0#32 (.setByte 0xAB#64) = some (packetOf (.setUint 8#7) 0#32 0xAB#64 []) ∧
      (box 2 [] 8#32 0#32 0#64 []).Inv ∧ (box 2 [] 8#32 0#32 0#64 []).cur + 8 ≤ (box 2 [] 8#32 0#32 0#64 []).nbits) ∧
    (Pseudo.expand 0#32 (.padTo 16) = some (packetOf .sparePadding 15#32 0#64 []) ∧
      (box 2 [] 15#32 0#32 0#64 []).Inv ∧ (box 2 [] 15#32 0#32 0#64 []).cur < 16 ∧
      16 ≤ (box 2 [] 15#32 0#32 0#64 []).nbits) ∧
    Pseudo.expand 0#32 .clear = some (packetOf .zero 0#32 0#64 []) := by
  decide

end Sys2Proof.Machine.Tests
end

section
/-! PROOFS. 00_scope.md: what a step does in each of its three cases, and the invariant of an instance. The invariant has two
parts. What is stored (capacity, DATA, CURSOR) is kept by each of the four moves of a command (`Kept`). The response is
not kept but written afresh, with one status of R91 and no result beside a failure, at the end of every command. -/

namespace Sys2Proof.Machine

/-! ### The three cases of a step -/

theorem step_idle {s : State} (h : s.script = []) : step s = .next s := by
  simp [step, h]

theorem step_undecodable {s : State} {p : Packet} {rest : List Packet} {e : Illegal} (h : s.script = p :: rest)
    (hd : decode p.cmd = .error e) : step s = .next (s.present p rest).illegal := by
  simp [step, h, hd]

theorem step_decoded {s : State} {p : Packet} {rest : List Packet} {i : Instr} (h : s.script = p :: rest)
    (hd : decode p.cmd = .ok i) : step s = exec i (s.present p rest) := by
  simp [step, h, hd]

/-! ### What is stored -/

/-- Two kept properties are kept together. -/
theorem Kept.and {P Q : State → Prop} (hP : Kept P) (hQ : Kept Q) : Kept (fun s => P s ∧ Q s) where
  bit s i b h hi := ⟨hP.bit s i b h.1 hi, hQ.bit s i b h.2 hi⟩
  bytes s a bs h ha := ⟨hP.bytes s a bs h.1 ha, hQ.bytes s a bs h.2 ha⟩
  cur s n h hn := ⟨hP.cur s n h.1 hn, hQ.cur s n h.2 hn⟩
  resp s st r h := ⟨hP.resp s st r h.1, hQ.resp s st r h.2⟩

/-- A legal capacity and a CURSOR inside it (R8, R24). -/
def State.CursorInside (s : State) : Prop := capacityOk s.cap = true ∧ s.cur ≤ s.nbits

/-- A canonical storage with no byte outside the capacity (R15). -/
def State.StorageInside (s : State) : Prop := Memory.wf s.data ∧ ∀ c ∈ s.data, c.1 < s.cap

/-- The moves keep CURSOR inside: it moves to a place that exists or back, and `NBITS` fits its 32 bits (R8). -/
theorem cursorInside_kept : Kept State.CursorInside where
  bit _ _ _ h _ := h
  bytes _ _ _ h _ := h
  cur s n h hn := by
    obtain ⟨hcap, hcur⟩ := h
    have hfits : n ≤ s.nbits := hn.elim id fun hback => le_trans hback hcur
    refine ⟨hcap, ?_⟩
    rw [State.setCur_cur s (lt_of_le_of_lt hfits (State.nbits_lt hcap))]
    exact hfits
  resp _ _ _ h := h

/-- The moves keep the storage canonical and inside the capacity. -/
theorem storageInside_kept : Kept State.StorageInside where
  bit _ i b h hi := ⟨State.bitWrite_wf h.1 i b, State.bitWrite_bound h.2 hi b⟩
  bytes _ a bs h ha := ⟨Memory.writeBytes_wf bs h.1 a, Memory.writeBytes_bound bs h.2 ha⟩
  cur _ _ h _ := h
  resp _ _ _ h := h

/-! ### The response -/

/-- STATUS is one of `0 .. 5` (R91), and there is no result beside a failure (R98). -/
def State.Answered (s : State) : Prop :=
  s.status.toNat ≤ 5 ∧ (s.status ≠ 0#8 → s.res = 0#64 ∧ s.out = [])

theorem Status.code_le (st : Status) : st.code.toNat ≤ 5 := by
  cases st <;> decide

theorem illegal_answered (s : State) : s.illegal.Answered :=
  ⟨Status.code_le .illegalCommand, fun _ => ⟨rfl, rfl⟩⟩

/-- A body that ends well answers with status 0, and one that raises answers with neither RES nor OUT. -/
theorem finish_answered (r2 : BitVec 32) (f : Flow Response) : (finish r2 f).Answered := by
  cases f with
  | done r t => exact ⟨Status.code_le .ok, fun hne => absurd rfl hne⟩
  | raised st t => exact ⟨Status.code_le st, fun _ => ⟨rfl, rfl⟩⟩

theorem runCommand_answered {framing : Bool} {r2 : BitVec 32} {body : State → Flow Response} {s t : State}
    (h : runCommand framing r2 body s = .next t) : t.Answered := by
  cases framing with
  | true => rw [runCommand_framed _ _ _ rfl] at h; cases h; exact finish_answered r2 (body s)
  | false => rw [runCommand_illegal _ _ _ rfl] at h; cases h; exact illegal_answered s

theorem exec_answered {i : Instr} {s t : State} (h : exec i s = .next t) : t.Answered := by
  obtain ⟨_, _, _, hshape, _⟩ := exec_shape i s
  exact runCommand_answered (hshape ▸ h)

/-- A step answers the packet it presents, and an idle step keeps the answer before it. -/
theorem step_answered {s t : State} (hs : s.Answered) (h : step s = .next t) : t.Answered := by
  cases hscript : s.script with
  | nil => rw [step_idle hscript] at h; cases h; exact hs
  | cons p rest =>
    cases hd : decode p.cmd with
    | error e => rw [step_undecodable hscript hd] at h; cases h; exact illegal_answered (s.present p rest)
    | ok i => rw [step_decoded hscript hd] at h; exact exec_answered h

/-! ### The invariant -/

theorem State.inv_iff (s : State) : s.Inv ↔ (s.CursorInside ∧ s.StorageInside) ∧ s.Answered := by
  constructor
  · rintro ⟨hcap, hwf, hbound, hcur, hstatus, hfail⟩
    exact ⟨⟨⟨hcap, hcur⟩, hwf, hbound⟩, hstatus, hfail⟩
  · rintro ⟨⟨⟨hcap, hcur⟩, hwf, hbound⟩, hstatus, hfail⟩
    exact ⟨hcap, hwf, hbound, hcur, hstatus, hfail⟩

/-- An instance as allocated: nothing listed in DATA, CURSOR 0 and the OK response with no result (R25). -/
theorem State.allocate_inv {cap : Nat} (h : capacityOk cap = true) : (State.allocate cap).Inv := by
  have hcursor : (State.allocate cap).CursorInside := ⟨h, Nat.zero_le _⟩
  have hstorage : (State.allocate cap).StorageInside :=
    ⟨⟨.nil, List.forall_mem_nil _⟩, List.forall_mem_nil _⟩
  have hresponse : (State.allocate cap).Answered := by simp [State.Answered, State.allocate]
  exact (State.inv_iff _).2 ⟨⟨hcursor, hstorage⟩, hresponse⟩

/-- Settles O13: the four moves of a command keep what is stored, and every command writes a response of its own. -/
theorem stepKeepsTheInvariant : Obligations.StepKeepsTheInvariant := by
  intro s t hs hstep
  obtain ⟨hstored, hresponse⟩ := (State.inv_iff s).1 hs
  exact (State.inv_iff t).2
    ⟨step_kept (cursorInside_kept.and storageInside_kept) (fun _ _ _ h => h) hstored hstep,
      step_answered hresponse hstep⟩

/-- Settles O5: the step's case for a word that decodes. -/
theorem stepRunsTheDecodedCommand : Obligations.StepRunsTheDecodedCommand :=
  fun _ _ _ _ hscript hd => step_decoded hscript hd

/-- Settles O12: allocation at every legal capacity, of which that of `State.reset` is one. -/
theorem allocationMeetsTheInvariant : Obligations.AllocationMeetsTheInvariant :=
  ⟨fun _ h => State.allocate_inv h, State.allocate_inv (by decide)⟩

end Sys2Proof.Machine
end

section
/-! PROOFS. 10_state.md: the reset values (R25), the bound on CURSOR (R24), what a command keeps (R16, R17), the
commands that keep CURSOR (R19), and that no response register is ever read (R22). For the last, the response registers
are replaced by arbitrary values: every operation of a command body carries them along unread, and the end of the
command overwrites them. -/

namespace Sys2Proof.Machine

/-! ### Reset and the bound on CURSOR (R24, R25) -/

/-- Settles O14: a step keeps CURSOR inside a legal capacity, because each of the four moves does. -/
theorem cursorStaysWithinCapacity : Obligations.CursorStaysWithinCapacity := by
  refine ⟨fun _ => Nat.zero_le _, fun s t hcap hcur hstep => ?_⟩
  obtain ⟨-, hinside⟩ := step_kept cursorInside_kept (fun _ _ _ h => h) ⟨hcap, hcur⟩ hstep
  exact hinside

/-- Settles O11: no byte is listed, and an unlisted byte reads 0x00. -/
theorem allocationValues : Obligations.AllocationValues :=
  fun _ => ⟨Memory.read_nil, rfl, rfl, rfl, rfl, rfl⟩

/-! ### The capacity and the port (R16, R17) -/

/-- `t` has the capacity, the packet and the packets to come of `s`. -/
def State.SamePort (s t : State) : Prop := t.cap = s.cap ∧ t.packet = s.packet ∧ t.script = s.script

theorem samePort_kept (s : State) : Kept s.SamePort where
  bit _ _ _ h _ := h
  bytes _ _ _ h _ := h
  cur _ _ h _ := h
  resp _ _ _ h := h

/-- Settles O10: none of the four moves of a command writes the capacity or the port. -/
theorem commandKeepsCapacityAndPort : Obligations.CommandKeepsCapacityAndPort := by
  intro i s t h
  obtain ⟨u, hu, hsame⟩ := exec_kept (samePort_kept s) i ⟨rfl, rfl, rfl⟩
  rw [hu] at h
  cases h
  exact hsame

/-! ### The commands that keep CURSOR (R19) -/

theorem finish_cursor (r2 : BitVec 32) (f : Flow Response) : (finish r2 f).cursor = f.state.cursor := by
  cases f <;> rfl

/-- A command whose body keeps CURSOR keeps it, also when its framing is wrong. -/
theorem runCommand_cursor {framing : Bool} {r2 : BitVec 32} {body : State → Flow Response} {s t : State}
    (hb : (body s).state.cursor = s.cursor) (h : runCommand framing r2 body s = .next t) : t.cursor = s.cursor := by
  cases framing with
  | true => rw [runCommand_framed _ _ _ rfl] at h; cases h; rw [finish_cursor, hb]
  | false => rw [runCommand_illegal _ _ _ rfl] at h; cases h; rfl

theorem getAt_cursor (i : Nat) (s : State) : (getAt i s).state.cursor = s.cursor :=
  getAt_kept (P := (·.cursor = s.cursor)) rfl

theorem setAt_cursor (i : Nat) (v : BitVal) (s : State) : (setAt i v s).state.cursor = s.cursor := by
  unfold setAt; split <;> rfl

theorem Status.code_ne_illegal {st : Status} (h : st.isFailure) : st.code ≠ 5#8 := by
  cases st with
  | ok | illegalCommand => exact h.elim
  | outOfRange | invalidArgument | notFound | malformedInput => decide

/-- A framed command does not end with ILLEGAL_COMMAND (R94). -/
theorem finish_status_ne_illegal {f : Flow Response} (r2 : BitVec 32) (h : f.RaisesOnly Status.isFailure) :
    (finish r2 f).status ≠ 5#8 := by
  cases f with
  | done r t => show Status.code .ok ≠ 5#8; decide
  | raised st t => exact Status.code_ne_illegal h

/-- A command ends with ILLEGAL_COMMAND at its framing check alone, which keeps all but the response (R94). -/
theorem exec_eq_illegal {i : Instr} {s t : State} (h : exec i s = .next t) (hst : t.status = 5#8) : t = s.illegal := by
  obtain ⟨framing, r2, body, hshape, -, -, hraises⟩ := exec_shape i s
  rw [hshape] at h
  cases framing with
  | true =>
    rw [runCommand_framed _ _ _ rfl] at h
    cases h
    exact absurd hst (finish_status_ne_illegal r2 hraises)
  | false => rw [runCommand_illegal _ _ _ rfl] at h; cases h; rfl

/-- The row "never" of R19. -/
theorem exec_cursor_of_neverWritesCursor {i : Instr} {s t : State} (h : exec i s = .next t)
    (hi : NeverWritesCursor i = true) : t.cursor = s.cursor := by
  cases i with
  | getBit =>
    rw [exec, execGetBit] at h
    refine runCommand_cursor ?_ h
    exact Flow.bind_kept (P := (·.cursor = s.cursor)) (getAt_cursor _ s) fun _ _ _ ht => ht
  | getBitHl =>
    rw [exec, execGetBitHl] at h
    refine runCommand_cursor ?_ h
    exact Flow.bind_kept (P := (·.cursor = s.cursor)) (getAt_cursor _ s) fun _ _ _ ht => ht
  | setBit v =>
    rw [exec, execSetBit] at h
    refine runCommand_cursor ?_ h
    exact Flow.bind_kept (P := (·.cursor = s.cursor)) (setAt_cursor _ v s) fun _ _ _ ht => ht
  | findFirstBit v => rw [exec, execFindFirstBit] at h; refine runCommand_cursor ?_ h; split <;> rfl
  | nthSetBit => rw [exec, execNthSetBit] at h; refine runCommand_cursor ?_ h; split <;> rfl
  | getInt16Msb nb => rw [exec, execGetInt16Msb] at h; refine runCommand_cursor ?_ h; split <;> rfl
  | pack => rw [exec, execPack] at h; exact runCommand_cursor (by rfl) h
  | unpack => rw [exec, execUnpack] at h; exact runCommand_cursor (by rfl) h
  | display => rw [exec, execDisplay] at h; exact runCommand_cursor (by rfl) h
  | runLength target => rw [exec, execRunLength] at h; exact runCommand_cursor (by rfl) h
  | setNextBit | getNextBitHl | setBits | setUint | getUint | fill | sparePadding | getBytes | setBytes | readField
  | writeField | unhex | zero | shiftLeft => cases hi

/-- Settles O21: the row "never" by its ten bodies, and ILLEGAL_COMMAND by the framing check. -/
theorem cursorKeepingCommands : Obligations.CursorKeepingCommands := by
  rintro i s t h (hnever | hillegal)
  · exact exec_cursor_of_neverWritesCursor h hnever
  · rw [exec_eq_illegal h hillegal]; rfl

/-! ### No command reads a response register (R22) -/

/-- The state with other values in its four response registers. -/
def State.withResponse (s : State) (st : BitVec 8) (r : Response) : State :=
  { s with status := st, res := r.res, res2 := r.res2, out := r.out }

/-- The same ending, in the state with other values in its response registers. -/
def Flow.withResponse {α : Type} (st : BitVec 8) (r : Response) : Flow α → Flow α
  | .done a s => .done a (s.withResponse st r)
  | .raised e s => .raised e (s.withResponse st r)

section
variable {α β : Type} (s : State) (st : BitVec 8) (r : Response)

@[simp] theorem State.withResponse_nbits : (s.withResponse st r).nbits = s.nbits := rfl
@[simp] theorem State.withResponse_opa : (s.withResponse st r).opa = s.opa := rfl
@[simp] theorem State.withResponse_bitRead (i : Nat) : (s.withResponse st r).bitRead i = s.bitRead i := rfl
@[simp] theorem State.withResponse_setCur (n : Nat) :
    (s.withResponse st r).setCur n = (s.setCur n).withResponse st r := rfl

theorem State.withResponse_writeBits (i : Nat) (bits : List Bool) :
    (s.withResponse st r).writeBits i bits = (s.writeBits i bits).withResponse st r := by
  induction bits generalizing s i with
  | nil => rfl
  | cons b bs ih => exact ih (s.bitWrite i b) (i + 1)

theorem State.withResponse_writeBits_setCur (i : Nat) (bits : List Bool) (n : Nat) :
    ((s.withResponse st r).writeBits i bits).setCur n = ((s.writeBits i bits).setCur n).withResponse st r := by
  rw [State.withResponse_writeBits, State.withResponse_setCur]

variable {s st r}

/-- A body carries the response along if both of its parts do. -/
theorem Flow.bind_withResponse {f g : Flow α} {k l : α → State → Flow β} (hf : g = f.withResponse st r)
    (hk : ∀ a t, l a (t.withResponse st r) = (k a t).withResponse st r) :
    g.bind l = (f.bind k).withResponse st r := by
  subst hf
  cases f with
  | done a t => exact hk a t
  | raised e t => rfl

/-- A test carries the response along if both of its branches do. -/
theorem Flow.ite_withResponse {c : Prop} [Decidable c] {f g f' g' : Flow α} (hf : f' = f.withResponse st r)
    (hg : g' = g.withResponse st r) : (if c then f' else g') = (if c then f else g).withResponse st r := by
  split
  · exact hf
  · exact hg

theorem getAt_withResponse {i : Nat} : getAt i (s.withResponse st r) = (getAt i s).withResponse st r :=
  Flow.ite_withResponse rfl rfl

theorem setAt_withResponse {i : Nat} {v : BitVal} :
    setAt i v (s.withResponse st r) = (setAt i v s).withResponse st r :=
  Flow.ite_withResponse rfl rfl

theorem setNext_withResponse {v : BitVal} : setNext v (s.withResponse st r) = (setNext v s).withResponse st r :=
  Flow.bind_withResponse setAt_withResponse fun _ _ => rfl

theorem getNext_withResponse : getNext (s.withResponse st r) = (getNext s).withResponse st r :=
  Flow.bind_withResponse getAt_withResponse fun _ _ => rfl

theorem setNextAll_withResponse {vs : List BitVal} :
    setNextAll vs (s.withResponse st r) = (setNextAll vs s).withResponse st r := by
  induction vs generalizing s with
  | nil => rfl
  | cons v vs ih => exact Flow.bind_withResponse setNext_withResponse fun _ _ => ih

theorem getNextBits_withResponse {n acc : Nat} :
    getNextBits n acc (s.withResponse st r) = (getNextBits n acc s).withResponse st r := by
  induction n generalizing s acc with
  | zero => rfl
  | succ n ih => exact Flow.bind_withResponse getNext_withResponse fun _ _ => ih

theorem unhexFrom_withResponse {inp : List Byte} {i n : Nat} :
    unhexFrom inp i n (s.withResponse st r) = (unhexFrom inp i n s).withResponse st r := by
  induction n generalizing s i with
  | zero => rfl
  | succ n ih =>
    rw [unhexFrom, unhexFrom]
    cases hexDigit (charAt inp i) with
    | none => rfl
    | some d => exact Flow.bind_withResponse (setNextAll_withResponse (s := s.setCur (4 * i))) fun _ _ => ih

theorem findFrom_withResponse {v : BitVal} {i n : Nat} : findFrom v (s.withResponse st r) i n = findFrom v s i n := by
  induction n generalizing i with
  | zero => rfl
  | succ n ih => rw [findFrom, findFrom, ih, State.withResponse_bitRead]

theorem nthFrom_withResponse {n k i fuel : Nat} :
    nthFrom n (s.withResponse st r) k i fuel = nthFrom n s k i fuel := by
  induction fuel generalizing k i with
  | zero => rfl
  | succ fuel ih => rw [nthFrom, nthFrom, ih, ih, State.withResponse_bitRead]

/-- A command overwrites the response that its body carries along. -/
theorem runCommand_withResponse {framing : Bool} {r2 : BitVec 32} {body : State → Flow Response}
    (hb : body (s.withResponse st r) = (body s).withResponse st r) :
    runCommand framing r2 body (s.withResponse st r) = runCommand framing r2 body s := by
  cases framing with
  | true =>
    rw [runCommand_framed _ _ _ rfl, runCommand_framed _ _ _ rfl, hb]
    cases body s <;> rfl
  | false => rfl

/-- No command reads a response register: its body carries them along (R22). -/
theorem exec_withResponse (i : Instr) : exec i (s.withResponse st r) = exec i s := by
  cases i with
  | getBit =>
    simp only [exec, execGetBit]
    exact runCommand_withResponse (Flow.bind_withResponse getAt_withResponse fun _ _ => rfl)
  | getBitHl =>
    simp only [exec, execGetBitHl]
    exact runCommand_withResponse (Flow.bind_withResponse getAt_withResponse fun _ _ => rfl)
  | setBit v =>
    simp only [exec, execSetBit]
    exact runCommand_withResponse (Flow.bind_withResponse setAt_withResponse fun _ _ => rfl)
  | findFirstBit v =>
    simp only [exec, execFindFirstBit]
    refine runCommand_withResponse ?_
    simp only [findFrom_withResponse, State.withResponse_opa, State.withResponse_nbits]
    split <;> rfl
  | nthSetBit =>
    simp only [exec, execNthSetBit]
    refine runCommand_withResponse ?_
    simp only [nthFrom_withResponse, State.withResponse_opa, State.withResponse_nbits]
    split <;> rfl
  | setNextBit v =>
    simp only [exec, execSetNextBit]
    exact runCommand_withResponse (Flow.bind_withResponse setNext_withResponse fun _ _ => rfl)
  | getNextBitHl =>
    simp only [exec, execGetNextBitHl]
    exact runCommand_withResponse (Flow.bind_withResponse getNext_withResponse fun _ _ => rfl)
  | setBits =>
    simp only [exec, execSetBits]
    exact runCommand_withResponse (Flow.bind_withResponse setNextAll_withResponse fun _ _ => rfl)
  | setUint nb =>
    simp only [exec, execSetUint]
    exact runCommand_withResponse
      (Flow.ite_withResponse rfl (Flow.bind_withResponse setNextAll_withResponse fun _ _ => rfl))
  | getUint nb =>
    simp only [exec, execGetUint]
    exact runCommand_withResponse
      (Flow.ite_withResponse rfl (Flow.bind_withResponse getNextBits_withResponse fun _ _ => rfl))
  | getInt16Msb nb =>
    simp only [exec, execGetInt16Msb]
    exact runCommand_withResponse (Flow.ite_withResponse rfl rfl)
  | fill v =>
    simp only [exec, execFill]
    exact runCommand_withResponse (Flow.bind_withResponse setNextAll_withResponse fun _ _ => rfl)
  | sparePadding =>
    simp only [exec, execSparePadding]
    exact runCommand_withResponse
      (Flow.ite_withResponse rfl (Flow.bind_withResponse setNextAll_withResponse fun _ _ => rfl))
  | getBytes =>
    simp only [exec, execGetBytes]
    exact runCommand_withResponse (Flow.ite_withResponse rfl rfl)
  | setBytes =>
    simp only [exec, execSetBytes]
    exact runCommand_withResponse
      (Flow.ite_withResponse rfl
        (congrArg (Flow.done ({} : Response)) (State.withResponse_writeBits_setCur s st r _ _ _)))
  | readField nb =>
    simp only [exec, execReadField]
    exact runCommand_withResponse (Flow.ite_withResponse rfl
      (Flow.ite_withResponse rfl
        (Flow.bind_withResponse (getNextBits_withResponse (s := s.setCur s.opa)) fun _ _ => rfl)))
  | writeField nb =>
    simp only [exec, execWriteField]
    exact runCommand_withResponse (Flow.ite_withResponse rfl
      (Flow.ite_withResponse rfl
        (Flow.bind_withResponse (setNextAll_withResponse (s := s.setCur s.opa)) fun _ _ => rfl)))
  | unhex =>
    simp only [exec, execUnhex]
    exact runCommand_withResponse (Flow.bind_withResponse unhexFrom_withResponse fun _ _ => rfl)
  | zero => simp only [exec, execZero]; exact runCommand_withResponse rfl
  | pack => simp only [exec, execPack]; exact runCommand_withResponse rfl
  | unpack => simp only [exec, execUnpack]; exact runCommand_withResponse rfl
  | display => simp only [exec, execDisplay]; exact runCommand_withResponse rfl
  | runLength target => simp only [exec, execRunLength]; exact runCommand_withResponse rfl
  | shiftLeft =>
    simp only [exec, execShiftLeft]
    exact runCommand_withResponse (Flow.ite_withResponse rfl (Flow.ite_withResponse rfl
      (congrArg (Flow.done ({} : Response)) (State.withResponse_writeBits_setCur s st r _ _ _))))

end

/-- Settles O16: the command's body carries the replaced registers along, and its end overwrites them. -/
theorem earlierResponsesAreNotRead : Obligations.EarlierResponsesAreNotRead :=
  fun i _ _ res res2 out => exec_withResponse (r := ⟨res, res2, out⟩) i

end Sys2Proof.Machine
end

section
/-! PROOFS. 20_memory.md: the place of a bit (R28), the low/high pattern (R33), a bit read back after it was written (R35,
R45), the commands that write no storage (R38, R39), and the storage carried to another instance by PACK and UNPACK
(R30). -/

namespace Sys2Proof.Machine

/-! ### The place of a bit (R28) -/

/-- Settles O22: the two ends of a byte are its numeric bits 7 and 0. -/
theorem bitIndexIsMsbFirst : Obligations.BitIndexIsMsbFirst := by
  refine ⟨fun _ _ => rfl, fun s k => ⟨?_, ?_⟩⟩
  · rw [BitVec.msb_eq_getLsbD_last]
    exact (State.read_getLsbD s k (q := 7) (by decide)).symm
  · exact (State.read_getLsbD s k (q := 0) (by decide)).symm

/-! ### A bit read back after it was written (R35, R45) -/

theorem State.inLenIs_of_length {s : State} {n : Nat} (h : s.inp.length = n) : s.inLenIs n = true :=
  decide_eq_true h

/-- A packet with no IN is framed for a command that takes none (R57). -/
theorem State.inLenIs_zero {s : State} (h : s.inp = []) : s.inLenIs 0 = true :=
  State.inLenIs_of_length (List.length_eq_zero_iff.2 h)

/-- SET_BIT inside the capacity writes the one bit and answers OK (R65). -/
theorem exec_setBit_lt {s : State} (v : BitVal) (hinp : s.inp = []) (h : s.opa < s.nbits) :
    exec (.setBit v) s = .next ((s.bitWrite s.opa (phys v s.opa)).respond .ok {}) := by
  rw [exec, execSetBit, runCommand_framed _ _ _ (State.inLenIs_zero hinp), setAt_lt h]; rfl

/-- GET_BIT inside the capacity answers with the physical bit (R63). -/
theorem exec_getBit_lt {s : State} (hinp : s.inp = []) (h : s.opa < s.nbits) :
    exec .getBit s = .next (s.respond .ok { res := resNat (s.bitRead s.opa).toNat }) := by
  rw [exec, execGetBit, runCommand_framed _ _ _ (State.inLenIs_zero hinp), getAt_lt h]; rfl

/-- GET_BIT_HL inside the capacity answers with the low/high view (R64). -/
theorem exec_getBitHl_lt {s : State} (hinp : s.inp = []) (h : s.opa < s.nbits) :
    exec .getBitHl s = .next (s.respond .ok { res := resVal (s.hlView s.opa) }) := by
  rw [exec, execGetBitHl, runCommand_framed _ _ _ (State.inLenIs_zero hinp), getAt_lt h]; rfl

section
variable {s : State} (v : BitVal) (hinp : s.inp = []) (h : s.opa < s.nbits)
include hinp h

/-- GET_BIT after SET_BIT of the same index answers with the bit that was written, and changes nothing else. -/
theorem exec_setBit_then_getBit : ∃ t, exec (.setBit v) s = .next t ∧
    exec .getBit t = .next { t with res := resNat (phys v s.opa).toNat } := by
  refine ⟨_, exec_setBit_lt v hinp h, ?_⟩
  rw [exec_getBit_lt (s := (s.bitWrite _ _).respond .ok {}) hinp h, State.respond_opa, State.bitWrite_opa,
    State.respond_bitRead, State.bitRead_bitWrite, if_pos rfl]
  rfl

/-- GET_BIT_HL after SET_BIT of the same index answers with the view of what was written, and changes nothing else. -/
theorem exec_setBit_then_getBitHl : ∃ t, exec (.setBit v) s = .next t ∧
    exec .getBitHl t = .next { t with res := resVal (hlVal (phys v s.opa) s.opa) } := by
  refine ⟨_, exec_setBit_lt v hinp h, ?_⟩
  rw [exec_getBitHl_lt (s := (s.bitWrite _ _).respond .ok {}) hinp h, State.hlView, State.respond_opa,
    State.bitWrite_opa, State.respond_bitRead, State.bitRead_bitWrite, if_pos rfl]
  rfl

end

/-- Settles O25: `one` and `zero` are written as the bits 1 and 0. -/
theorem setBitThenGetBit : Obligations.SetBitThenGetBit :=
  fun _ hinp h => ⟨exec_setBit_then_getBit .one hinp h, exec_setBit_then_getBit .zero hinp h⟩

/-- The low/high view of a `high` bit is `high`, whatever the pattern holds at its index (R35). -/
theorem hlVal_phys_high (i : Nat) : hlVal (phys .high i) i = .high := if_pos rfl

/-- The low/high view of a `low` bit is `low`, whatever the pattern holds at its index (R35). -/
theorem hlVal_phys_low (i : Nat) : hlVal (phys .low i) i = .low := if_neg (Bool.self_ne_not _)

/-- Settles O24: `high` and `low` are their own views at every index. -/
theorem highLowSymmetry : Obligations.HighLowSymmetry := by
  intro s hinp h
  have hhigh := exec_setBit_then_getBitHl .high hinp h
  have hlow := exec_setBit_then_getBitHl .low hinp h
  rw [hlVal_phys_high] at hhigh
  rw [hlVal_phys_low] at hlow
  exact ⟨hhigh, hlow⟩

/-! ### The low/high pattern (R33) -/

/-- FILL that fits writes its bits from CURSOR on, leaves CURSOR after them and answers OK (R75). -/
theorem exec_fill_fits {s : State} (v : BitVal) (hinp : s.inp = []) (hn : s.nbits < 2 ^ 32)
    (h : s.cur + s.opa ≤ s.nbits) :
    exec (.fill v) s = .next
      (((s.writeBits s.cur (physBits s.cur (List.replicate s.opa v))).setCur (s.cur + s.opa)).respond .ok {}) := by
  rw [exec, execFill, runCommand_framed _ _ _ (State.inLenIs_zero hinp),
    setNextAll_fits _ _ hn (by rwa [List.length_replicate]), List.length_replicate]
  rfl

/-- FILL of eight bits at an aligned CURSOR forms the byte whose bits are the physical bits of the value there. -/
theorem exec_fill_byte {s : State} {v : BitVal} {a : Nat} {b : Byte} (hinv : s.Inv) (hinp : s.inp = [])
    (ha : a < s.cap) (hcur : s.cur = 8 * a) (hopa : s.opa = 8)
    (hb : ∀ q < 8, phys v (8 * a + (7 - q)) = b.getLsbD q) :
    ∃ t, exec (.fill v) s = .next t ∧ t.status = 0#8 ∧ Memory.read t.data a = b := by
  have hfits : s.cur + s.opa ≤ s.nbits := by unfold State.nbits; omega
  refine ⟨_, exec_fill_fits v hinp (State.nbits_lt hinv.1) hfits, rfl, BitVec.eq_of_getLsbD_eq fun q hq => ?_⟩
  rw [State.read_getLsbD _ _ hq, State.respond_bitRead, State.setCur_bitRead, State.bitRead_writeBits, hcur, hopa,
    length_physBits, List.length_replicate, if_pos (by omega), Nat.add_sub_cancel_left,
    getD_physBits _ _ _ (by rw [List.length_replicate]; omega), List.getD_replicate (h := by omega)]
  exact hb q hq

/-- Inside an aligned byte, the pattern's bits are those of 0x2B by numeric position. -/
theorem lpat_byte (a : Nat) {q : Nat} (hq : q < 8) : lpat (8 * a + (7 - q)) = (0x2B#8).getLsbD q := by
  have hpos : posOf (8 * a + (7 - q)) = q := by unfold posOf; omega
  rw [lpat, hpos, lowHighPattern]

/-- The pattern by index within a byte. -/
theorem lpat_eq_table (i : Nat) :
    lpat i = [false, false, true, false, true, false, true, true].getD (i % 8) false := by
  have table : ∀ j < 8, (0x2B#8).getLsbD (7 - j) = [false, false, true, false, true, false, true, true].getD j false := by
    decide
  exact table (i % 8) (Nat.mod_lt _ (by decide))

/-- Settles O23: the pattern is the table of R33 and the byte 0x2B, and `high` is its complement, 0xD4. -/
theorem lowHighPatternBytes : Obligations.LowHighPatternBytes := by
  refine ⟨fun i => ⟨lpat_eq_table i, ?_⟩, fun s a hinv hinp ha hcur hopa => ⟨?_, ?_⟩⟩
  · have complement : ∀ j < 8, (!([false, false, true, false, true, false, true, true].getD j false))
        = [true, true, false, true, false, true, false, false].getD j false := by decide
    rw [phys, lpat_eq_table]
    exact complement (i % 8) (Nat.mod_lt _ (by decide))
  · exact exec_fill_byte hinv hinp ha hcur hopa fun q hq => lpat_byte a hq
  · refine exec_fill_byte hinv hinp ha hcur hopa fun q hq => ?_
    have complement : ∀ q < 8, (!(0x2B#8).getLsbD q) = (0xD4#8).getLsbD q := by decide
    rw [phys, lpat_byte a hq]
    exact complement q hq

/-! ### The commands that write no storage (R38, R39) -/

theorem finish_data (r2 : BitVec 32) (f : Flow Response) : (finish r2 f).data = f.state.data := by
  cases f <;> rfl

/-- A command whose body keeps the storage keeps it, also when its framing is wrong. -/
theorem runCommand_data {framing : Bool} {r2 : BitVec 32} {body : State → Flow Response} {s t : State}
    (hb : (body s).state.data = s.data) (h : runCommand framing r2 body s = .next t) : t.data = s.data := by
  cases framing with
  | true => rw [runCommand_framed _ _ _ rfl] at h; cases h; rw [finish_data, hb]
  | false => rw [runCommand_illegal _ _ _ rfl] at h; cases h; rfl

/-- What only answers after a body keeps the storage that the body keeps. -/
theorem Flow.bind_done_data {α β : Type} {f : Flow α} {r : α → β} {d : List Host.Cell} (h : f.state.data = d) :
    (f.bind fun a t => .done (r a) t).state.data = d :=
  Flow.bind_kept (P := (·.data = d)) h fun _ _ _ ht => ht

theorem getAt_data (i : Nat) (s : State) : (getAt i s).state.data = s.data :=
  getAt_kept (P := (·.data = s.data)) rfl

theorem getNext_data (s : State) : (getNext s).state.data = s.data :=
  Flow.bind_kept (P := (·.data = s.data)) (getAt_data s.cur s) fun _ _ _ ht => ht

theorem getNextBits_data (n r : Nat) (s : State) : (getNextBits n r s).state.data = s.data := by
  induction n generalizing r s with
  | zero => rfl
  | succ n ih =>
    exact Flow.bind_kept (P := (·.data = s.data)) (getNext_data s) fun b t _ ht => (ih (pushBit r b) t).trans ht

/-- Settles O20: the bodies of the twelve reading commands keep the storage. -/
theorem readingCommandsKeepData : Obligations.ReadingCommandsKeepData := by
  intro i s t hi h
  cases i with
  | getBit => rw [exec, execGetBit] at h; exact runCommand_data (Flow.bind_done_data (getAt_data _ s)) h
  | getBitHl => rw [exec, execGetBitHl] at h; exact runCommand_data (Flow.bind_done_data (getAt_data _ s)) h
  | getNextBitHl => rw [exec, execGetNextBitHl] at h; exact runCommand_data (Flow.bind_done_data (getNext_data s)) h
  | findFirstBit v => rw [exec, execFindFirstBit] at h; refine runCommand_data ?_ h; split <;> rfl
  | nthSetBit => rw [exec, execNthSetBit] at h; refine runCommand_data ?_ h; split <;> rfl
  | getInt16Msb nb => rw [exec, execGetInt16Msb] at h; refine runCommand_data ?_ h; split <;> rfl
  | getBytes => rw [exec, execGetBytes] at h; refine runCommand_data ?_ h; split <;> rfl
  | getUint nb =>
    rw [exec, execGetUint] at h
    refine runCommand_data ?_ h
    split
    · rfl
    · exact Flow.bind_done_data (getNextBits_data _ _ s)
  | readField nb =>
    rw [exec, execReadField] at h
    refine runCommand_data ?_ h
    split
    · rfl
    · split
      · rfl
      · exact Flow.bind_done_data (getNextBits_data _ _ (s.setCur s.opa))
  | pack => rw [exec, execPack] at h; exact runCommand_data (by rfl) h
  | display => rw [exec, execDisplay] at h; exact runCommand_data (by rfl) h
  | runLength target => rw [exec, execRunLength] at h; exact runCommand_data (by rfl) h
  | setBit | setNextBit | setBits | setUint | fill | sparePadding | setBytes | writeField | unhex | zero | unpack
  | shiftLeft => cases hi

/-! ### The storage carried to another instance (R30, R84, R85) -/

@[simp] theorem Memory.length_readBytes (m : List Host.Cell) (a n : Nat) : (Memory.readBytes m a n).length = n := by
  simp [Memory.readBytes]

/-- An address that is not listed reads as 0x00. -/
theorem Memory.read_of_not_listed {m : List Host.Cell} {a : Nat} (h : ∀ c ∈ m, c.1 ≠ a) :
    Memory.read m a = Memory.unlisted := by
  induction m with
  | nil => rfl
  | cons c m ih =>
    rw [show c = (c.1, c.2) from rfl, Memory.read_cons, if_neg (h c (by simp)), ih fun d hd => h d (by simp [hd])]

/-- The `n` bytes of a canonical storage inside `n`, written to an empty one, are that storage. -/
theorem Memory.writeBytes_readBytes {m : List Host.Cell} {n : Nat} (hwf : Memory.wf m) (hbound : ∀ c ∈ m, c.1 < n) :
    Memory.writeBytes [] 0 (Memory.readBytes m 0 n) = m := by
  have hnil : Memory.wf [] := ⟨.nil, List.forall_mem_nil _⟩
  refine Memory.wf_ext (Memory.writeBytes_wf _ hnil 0) hwf fun a => ?_
  rw [Memory.read_writeBytes, Memory.length_readBytes]
  by_cases ha : a < n
  · simp [Memory.readBytes, ha]
  · rw [if_neg (by omega), Memory.read_nil, Memory.read_of_not_listed fun c hc => by have := hbound c hc; omega]

/-- PACK answers with the bytes of the capacity, in order (R84). -/
theorem exec_pack_framed {s : State} (hinp : s.inp = []) :
    exec .pack s = .next (s.respond .ok { out := Memory.readBytes s.data 0 s.cap }) := by
  rw [exec, execPack, runCommand_framed _ _ _ (State.inLenIs_zero hinp), finish_done]

/-- UNPACK of as many bytes as the capacity stores them from address 0 on and answers OK (R85). -/
theorem exec_unpack_framed {s : State} (hinp : s.inp.length = s.cap) :
    exec .unpack s = .next (State.respond { s with data := Memory.writeBytes s.data 0 s.inp } .ok {}) := by
  rw [exec, execUnpack, runCommand_framed _ _ _ (State.inLenIs_of_length hinp), finish_done]

/-- Settles O52: OUT of PACK has the length that UNPACK asks for, and its bytes are the whole of a canonical storage. -/
theorem packThenUnpackCopiesTheStorage : Obligations.PackThenUnpackCopiesTheStorage := by
  rintro s ⟨-, hwf, hbound, -⟩ hinp
  refine ⟨_, exec_pack_framed hinp, fun p hp => ?_⟩
  rw [State.respond_out] at hp
  have hlen : p.inp.length = s.cap := by rw [hp, Memory.length_readBytes]
  have hdata : Memory.writeBytes [] 0 p.inp = s.data := by rw [hp, Memory.writeBytes_readBytes hwf hbound]
  rw [exec_unpack_framed (s := { State.allocate s.cap with packet := p }) hlen, ← hdata]
  rfl

end Sys2Proof.Machine
end

section
/-! PROOFS. 30_encoding.md: the command word (R49 to R55, R62) and the length of IN and of OUT (R57, R58). A word is
read through its four fields: the encoder puts them together, and the decoder and the mask of a row look at each field
alone. -/

namespace Sys2Proof

/-! ### The fields of an assembled word (R49) -/

section
variable (opc : BitVec 8) (v : BitVec 2) (nb : BitVec 7)

@[simp] theorem fieldRsv_assembleWord : fieldRsv (assembleWord opc v nb) = 0#15 :=
  BitVec.extractLsb'_append_eq_right

@[simp] theorem fieldNb_assembleWord : fieldNb (assembleWord opc v nb) = nb :=
  (BitVec.extractLsb'_append_eq_of_le (by decide)).trans BitVec.extractLsb'_append_eq_right

@[simp] theorem fieldV_assembleWord : fieldV (assembleWord opc v nb) = v :=
  (BitVec.extractLsb'_append_eq_of_le (by decide)).trans
    ((BitVec.extractLsb'_append_eq_of_le (by decide)).trans BitVec.extractLsb'_append_eq_right)

@[simp] theorem fieldOpc_assembleWord : fieldOpc (assembleWord opc v nb) = opc :=
  (BitVec.extractLsb'_append_eq_of_le (by decide)).trans
    ((BitVec.extractLsb'_append_eq_of_le (by decide)).trans BitVec.extractLsb'_append_eq_left)

theorem decode_assembleWord : decode (assembleWord opc v nb) = decodeFields opc v nb := by
  simp [decode]

end

/-! ### Encoding and decoding are inverse (R54, R62) -/

/-- Every row of the opcode map gives back the fields that its command was encoded with (R54). -/
theorem decode_encode (i : Instr) : decode (encode i) = .ok i := by
  cases i with
  | setBit v | findFirstBit v | setNextBit v | fill v =>
    rw [encode, decode_assembleWord]
    simp [decodeFields, decodeValue]
  | runLength target => cases target <;> rfl
  | setUint nb | getUint nb | getInt16Msb nb | readField nb | writeField nb =>
    rw [encode, decode_assembleWord]
    rfl
  | getBit | getBitHl | nthSetBit | getNextBitHl | setBits | sparePadding | getBytes | setBytes | unhex | zero | pack
  | unpack | display | shiftLeft => rfl

/-- Settles O1: the decoder reads from an assembled word the fields it was assembled from. -/
theorem decodeOfEncode : Obligations.DecodeOfEncode :=
  decode_encode

section
variable {i j : Instr} {v : BitVec 2} {nb : BitVec 7}

theorem decodePlain_eq_ok (h : decodePlain i v nb = .ok j) : v = 0#2 ∧ nb = 0#7 ∧ i = j := by
  unfold decodePlain at h
  grind

theorem decodeValue_eq_ok {mk : BitVal → Instr} (h : decodeValue mk v nb = .ok j) :
    nb = 0#7 ∧ mk (BitVal.ofCode v) = j := by
  unfold decodeValue at h
  grind

theorem decodeCount_eq_ok {mk : BitVec 7 → Instr} (h : decodeCount mk v nb = .ok j) : v = 0#2 ∧ mk nb = j := by
  unfold decodeCount at h
  grind

theorem decodeTarget_eq_ok {mk : Bool → Instr} (h : decodeTarget mk v nb = .ok j) :
    v = (if v.getLsbD 0 then 1#2 else 0#2) ∧ nb = 0#7 ∧ mk (v.getLsbD 0) = j := by
  have hcode : ∀ v : BitVec 2, v.getLsbD 1 = false → v = if v.getLsbD 0 then 1#2 else 0#2 := by decide
  unfold decodeTarget at h
  grind

end

/-- The opcode map is one to one: the fields it accepts are those of the command it answers with (R62). The cases are
the rows of the map by the fields they use: none, V, NB, and the RUN_LENGTH target. -/
theorem encode_of_decodeFields {opc : BitVec 8} {v : BitVec 2} {nb : BitVec 7} {i : Instr}
    (h : decodeFields opc v nb = .ok i) : encode i = assembleWord opc v nb := by
  have hword {n : Nat} (hopc : opc.toNat = n) (v : BitVec 2) (nb : BitVec 7) :
      assembleWord (BitVec.ofNat 8 n) v nb = assembleWord opc v nb := by
    rw [← hopc, BitVec.ofNat_toNat, BitVec.setWidth_eq]
  unfold decodeFields at h
  split at h
  case h_1 hopc | h_2 hopc | h_5 hopc | h_7 hopc | h_8 hopc | h_13 hopc | h_14 hopc | h_15 hopc | h_18 hopc | h_19 hopc
      | h_20 hopc | h_21 hopc | h_22 hopc | h_24 hopc =>
    obtain ⟨rfl, rfl, rfl⟩ := decodePlain_eq_ok h
    rw [encode, hword hopc]
  case h_3 hopc | h_4 hopc | h_6 hopc | h_12 hopc =>
    obtain ⟨rfl, rfl⟩ := decodeValue_eq_ok h
    rw [encode, hword hopc, BitVal.code_ofCode]
  case h_9 hopc | h_10 hopc | h_11 hopc | h_16 hopc | h_17 hopc =>
    obtain ⟨rfl, rfl⟩ := decodeCount_eq_ok h
    rw [encode, hword hopc]
  case h_23 hopc =>
    obtain ⟨hv, rfl, rfl⟩ := decodeTarget_eq_ok h
    rw [encode, hword hopc, ← hv]
  case h_25 => cases h

/-- Settles O2: a decodable word has no reserved bit, so it is the word assembled from its other fields. -/
theorem oneWordForEachCommand : Obligations.OneWordForEachCommand := by
  intro w i h
  unfold decode at h
  split at h
  · cases h
  · next hrsv => rw [encode_of_decodeFields h, ← word_eq_assembleWord (not_not.1 hrsv)]

/-! ### The row of a word (R55) -/

namespace Machine

/-- The command word of a command matches the command's row. -/
theorem encode_and_rowMask (i : Instr) : encode i &&& rowMask i = rowMatch i := by
  cases i with
  | setBit v | findFirstBit v | setNextBit v | fill v => cases v <;> decide
  | runLength target => cases target <;> decide
  | setUint nb | getUint nb | getInt16Msb nb | readField nb | writeField nb => revert nb; decide
  | getBit | getBitHl | nthSetBit | getNextBitHl | setBits | sparePadding | getBytes | setBytes | unhex | zero | pack
  | unpack | display | shiftLeft => rfl

/-- A word that matches a row has the row's opcode, and in the other fields no bit but those the mask leaves free. -/
theorem fields_of_matches {w : CmdWord} {i : Instr} (h : w &&& rowMask i = rowMatch i) :
    fieldRsv w = 0#15 ∧ fieldOpc w = fieldOpc (rowMatch i) ∧ fieldV w &&& fieldV (rowMask i) = 0#2 ∧
      fieldNb w &&& fieldNb (rowMask i) = 0#7 := by
  have hfield (start len : Nat) : w.extractLsb' start len &&& (rowMask i).extractLsb' start len
      = (rowMatch i).extractLsb' start len := by rw [← BitVec.extractLsb'_and, h]
  have hmask : fieldRsv (rowMask i) = .allOnes 15 ∧ fieldOpc (rowMask i) = .allOnes 8 := by
    cases i <;> simp only [rowMask] <;> decide
  have hmatch : fieldRsv (rowMatch i) = 0#15 ∧ fieldV (rowMatch i) = 0#2 ∧ fieldNb (rowMatch i) = 0#7 := by
    cases i <;> simp only [rowMatch] <;> decide
  obtain ⟨hrsvMask, hopcMask⟩ := hmask
  obtain ⟨hrsvMatch, hvMatch, hnbMatch⟩ := hmatch
  have hrsv : fieldRsv w &&& fieldRsv (rowMask i) = fieldRsv (rowMatch i) := hfield 0 15
  have hopc : fieldOpc w &&& fieldOpc (rowMask i) = fieldOpc (rowMatch i) := hfield 24 8
  rw [hrsvMask, BitVec.and_allOnes, hrsvMatch] at hrsv
  rw [hopcMask, BitVec.and_allOnes] at hopc
  exact ⟨hrsv, hopc, (hfield 22 2).trans hvMatch, (hfield 15 7).trans hnbMatch⟩

/-- A word that matches a row decodes to a command of that row, whatever the fields that the mask leaves free (R55). -/
theorem decode_of_matches {w : CmdWord} {i : Instr} (h : w &&& rowMask i = rowMatch i) :
    ∃ j, decode w = .ok j ∧ rowMatch j = rowMatch i := by
  obtain ⟨hrsv, hopc, hv, hnb⟩ := fields_of_matches h
  rw [word_eq_assembleWord hrsv, decode_assembleWord, hopc]
  cases i <;> simp only [rowMask, rowMatch] at hv hnb ⊢
  case setBit | findFirstBit | setNextBit | fill =>
    have hnb : fieldNb w = 0#7 := BitVec.and_allOnes.symm.trans hnb
    rw [hnb]
    exact ⟨_, rfl, rfl⟩
  case setUint | getUint | getInt16Msb | readField | writeField =>
    have hv : fieldV w = 0#2 := BitVec.and_allOnes.symm.trans hv
    rw [hv]
    exact ⟨_, rfl, rfl⟩
  case runLength =>
    have hbit : ∀ v : BitVec 2, v &&& 2#2 = 0#2 → v = 0#2 ∨ v = 1#2 := by decide
    have hnb : fieldNb w = 0#7 := BitVec.and_allOnes.symm.trans hnb
    rw [hnb]
    obtain hv | hv := hbit _ hv
    · rw [hv]; exact ⟨_, rfl, rfl⟩
    · rw [hv]; exact ⟨_, rfl, rfl⟩
  case getBit | getBitHl | nthSetBit | getNextBitHl | setBits | sparePadding | getBytes | setBytes | unhex | zero | pack
      | unpack | display | shiftLeft =>
    have hv : fieldV w = 0#2 := BitVec.and_allOnes.symm.trans hv
    have hnb : fieldNb w = 0#7 := BitVec.and_allOnes.symm.trans hnb
    rw [hv, hnb]
    exact ⟨_, rfl, rfl⟩

/-- Settles O3: a decodable word is its command's word and so matches its row; a matching word decodes to its row; and a
word that decodes would match a row, so one that matches none ends the step with ILLEGAL_COMMAND. -/
theorem decodeSelectsTheMatchingRow : Obligations.DecodeSelectsTheMatchingRow := by
  intro w
  have hmatches (i : Instr) (h : decode w = .ok i) : w &&& rowMask i = rowMatch i := by
    rw [oneWordForEachCommand w i h, encode_and_rowMask]
  refine ⟨hmatches, fun i h => decode_of_matches h, fun s p rest hcmd hscript hnone => ?_⟩
  cases hd : decode w with
  | error e => exact ⟨_, step_undecodable hscript (hcmd ▸ hd), rfl⟩
  | ok i => exact absurd (hmatches i hd) (hnone i)

/-! ### The length of IN (R57, R95) -/

/-- Settles O8: every command is its framing check and then a body, and a failed check answers ILLEGAL_COMMAND. -/
theorem badFramingIsIllegal : Obligations.BadFramingIsIllegal := by
  intro i s hbad
  obtain ⟨framing, r2, body, hshape, hframing, -⟩ := exec_shape i s
  rw [hshape, runCommand_illegal r2 body s (Bool.eq_false_iff.2 (mt hframing.1 hbad))]
  rfl

/-! ### The length of OUT (R58) -/

/-- What a command body answers when it ends well has `n` bytes of OUT. A body that raises answers with none, which is
what `n` asks for if it is 0, and must say so in STATUS if not. -/
def Flow.OutHasLength (n : Nat) : Flow Response → Prop
  | .done r _ => r.out.length = n
  | .raised st _ => n = 0 ∨ st.code ≠ 0#8

/-- What answers without OUT after any body has none. -/
theorem Flow.bind_outHasLength {α : Type} {f : Flow α} {k : α → State → Flow Response}
    (hk : ∀ a t, (k a t).OutHasLength 0) : (f.bind k).OutHasLength 0 := by
  cases f with
  | done a t => exact hk a t
  | raised st t => exact .inl rfl

theorem runCommand_outLength {framing : Bool} {r2 : BitVec 32} {body : State → Flow Response} {s t : State} {n : Nat}
    (h : runCommand framing r2 body s = .next t) (hok : t.status = 0#8) (hb : (body s).OutHasLength n) :
    t.out.length = n := by
  cases framing with
  | false => rw [runCommand_illegal _ _ _ rfl] at h; cases h; cases hok
  | true =>
    rw [runCommand_framed _ _ _ rfl] at h
    cases h
    cases hbody : body s with
    | done r u => rw [hbody] at hb; exact hb
    | raised st u =>
      rw [hbody] at hb hok
      exact (hb.resolve_right (not_not.2 hok)).symm

/-- The body of GET_BYTES answers with OPA bytes, that of PACK with the capacity's and that of DISPLAY with the rendering
of CURSOR bits; no other answers with OUT. -/
theorem exec_outLength {i : Instr} {s t : State} (h : exec i s = .next t) (hok : t.status = 0#8) :
    t.out.length = OutLength s i := by
  cases i with
  | getBytes =>
    rw [exec, execGetBytes] at h
    refine runCommand_outLength h hok ?_
    split
    · exact .inr (by decide)
    · exact (List.length_map _).trans List.length_range
  | pack => rw [exec, execPack] at h; exact runCommand_outLength h hok (Memory.length_readBytes s.data 0 s.cap)
  | display => rw [exec, execDisplay] at h; exact runCommand_outLength h hok (displayBits_spec s s.cur).1
  | getBit | getBitHl | setBit | setNextBit | getNextBitHl | setBits | fill | unhex =>
    simp only [exec, execGetBit, execGetBitHl, execSetBit, execSetNextBit, execGetNextBitHl, execSetBits, execFill,
      execUnhex] at h
    exact runCommand_outLength h hok (Flow.bind_outHasLength fun _ _ => rfl)
  | setUint | getUint =>
    simp only [exec, execSetUint, execGetUint] at h
    refine runCommand_outLength h hok ?_
    split
    · exact .inl rfl
    · exact Flow.bind_outHasLength fun _ _ => rfl
  | sparePadding =>
    simp only [exec, execSparePadding] at h
    refine runCommand_outLength h hok ?_
    split
    · rfl
    · exact Flow.bind_outHasLength fun _ _ => rfl
  | readField | writeField =>
    simp only [exec, execReadField, execWriteField] at h
    refine runCommand_outLength h hok ?_
    split
    · exact .inl rfl
    · split
      · exact .inl rfl
      · exact Flow.bind_outHasLength fun _ _ => rfl
  | zero | unpack | runLength =>
    simp only [exec, execZero, execUnpack, execRunLength] at h
    exact runCommand_outLength h hok rfl
  | findFirstBit | nthSetBit =>
    simp only [exec, execFindFirstBit, execNthSetBit] at h
    refine runCommand_outLength h hok ?_
    split
    · rfl
    · exact .inl rfl
  | getInt16Msb | setBytes =>
    simp only [exec, execGetInt16Msb, execSetBytes] at h
    refine runCommand_outLength h hok ?_
    split
    · exact .inl rfl
    · rfl
  | shiftLeft =>
    rw [exec, execShiftLeft] at h
    refine runCommand_outLength h hok ?_
    split
    · rfl
    · split <;> rfl

/-- Settles O18: the length after OK by each command's body, and no OUT beside a failure by the end of every command. -/
theorem outputLength : Obligations.OutputLength := by
  intro i s t h
  obtain ⟨-, hfail⟩ := exec_answered h
  exact ⟨exec_outLength h, fun hst => (hfail hst).2⟩

end Machine
end Sys2Proof
end

section
/-! PROOFS. The commands that a pseudo-instruction expands to (30_encoding.md rule R61), when what they access fits; the
effect of each expansion; and the integer round trip, which is SET_UINT, SETCUR and GET_UINT (41_sequential.md rule
R82). -/

namespace Sys2Proof.Machine

/-! ### The commands of the expansions, when they fit (R72, R73, R76, R79, R83) -/

section
variable {s : State} {nb : BitVec 7} (hinp : s.inp = [])
include hinp

/-- SET_UINT that fits writes the low `nb` bits of OPB from CURSOR on, most significant first (R72). -/
theorem exec_setUint_fits (hn : s.nbits < 2 ^ 32) (hnb : nb.toNat ≤ 32) (h : s.cur + nb.toNat ≤ s.nbits) :
    ∃ d, exec (.setUint nb) s
        = .next (State.respond { s with data := d, cursor := BitVec.ofNat 32 (s.cur + nb.toNat) } .ok {}) ∧
      BitsWritten s { s with data := d } s.cur nb.toNat (fun i => s.opb.getLsbD (nb.toNat - 1 - (i - s.cur))) := by
  have hbits (k : Nat) (hk : k < nb.toNat) : phys ((valueBits s.opbLow nb.toNat).getD k .zero) (s.cur + k)
      = s.opb.getLsbD (nb.toNat - 1 - (s.cur + k - s.cur)) := by
    rw [getD_valueBits _ hk, phys_plainVal, State.opbLow, BitVec.getLsbD_extractLsb', Nat.add_sub_cancel_left,
      Nat.zero_add, decide_eq_true (by omega), Bool.true_and]
  obtain ⟨d, hd, hwritten⟩ := setNextAll_writes
    (bit := fun i => s.opb.getLsbD (nb.toNat - 1 - (i - s.cur))) hn (length_valueBits _ _) h hbits
  refine ⟨d, ?_, hwritten⟩
  rw [exec, execSetUint, runCommand_framed _ _ _ (State.inLenIs_zero hinp), if_neg (by omega), hd]
  rfl

/-- GET_UINT that fits answers with the value of the `nb` bits at CURSOR and advances over them (R73). -/
theorem exec_getUint_fits (hn : s.nbits < 2 ^ 32) (hnb : nb.toNat ≤ 32) (h : s.cur + nb.toNat ≤ s.nbits) :
    exec (.getUint nb) s
      = .next ((s.setCur (s.cur + nb.toNat)).respond .ok { res := resNat (uintAt s s.cur nb.toNat) }) := by
  rw [exec, execGetUint, runCommand_framed _ _ _ (State.inLenIs_zero hinp), if_neg (by omega),
    getNextBits_fits _ _ _ hn h, ← natOfBits_readBits]
  rfl

/-- GET_UINT of one bit, at any capacity: the physical bit at CURSOR (R73). -/
theorem exec_getUint_one (h : s.cur < s.nbits) :
    exec (.getUint 1#7) s = .next ((s.setCur (s.cur + 1)).respond .ok { res := resNat (s.bitRead s.cur).toNat }) := by
  have hread : getNextBits 1 0 s = .done (pushBit 0 (s.bitRead s.cur)) (s.setCur (s.cur + 1)) := by
    rw [getNextBits, getNext_lt h]
    rfl
  rw [exec, execGetUint, runCommand_framed _ _ _ (State.inLenIs_zero hinp), if_neg (by decide), BitVec.toNat_ofNat,
    hread]
  simp [pushBit]

/-- READ_FIELD of no bits moves CURSOR to a start inside the capacity, `NBITS` included (R79). -/
theorem exec_readField_zero (h : s.opa ≤ s.nbits) :
    exec (.readField 0#7) s = .next (State.respond { s with cursor := s.packet.opa } .ok { res2 := s.packet.opa }) := by
  rw [exec, execReadField, runCommand_framed _ _ _ (State.inLenIs_zero hinp), if_neg (by decide), if_neg (by omega)]
  simp [getNextBits, State.setCur, State.opa, resNat]

/-- READ_FIELD from a start beyond `NBITS` changes nothing but the response (R79). -/
theorem exec_readField_beyond (hnb : nb.toNat ≤ 64) (h : s.nbits < s.opa) :
    exec (.readField nb) s = .next (s.respond .outOfRange { res2 := s.packet.opa }) := by
  rw [exec, execReadField, runCommand_framed _ _ _ (State.inLenIs_zero hinp), if_neg (by omega), if_pos h]
  rfl

/-- SPARE_PADDING up to an index from CURSOR on and inside the capacity fills with `low` through that index (R76). -/
theorem exec_sparePadding_fits (hn : s.nbits < 2 ^ 32) (hcur : s.cur ≤ s.opa) (h : s.opa < s.nbits) :
    ∃ d, exec .sparePadding s
        = .next (State.respond { s with data := d, cursor := BitVec.ofNat 32 (s.opa + 1) } .ok {}) ∧
      BitsWritten s { s with data := d } s.cur (s.opa + 1 - s.cur) (phys .low) := by
  have hcount : ((s.opa : Int) - (s.cur : Int) + 1).toNat = s.opa + 1 - s.cur := by omega
  obtain ⟨d, hd, hwritten⟩ := setNextAll_writes hn List.length_replicate
    (show s.cur + (s.opa + 1 - s.cur) ≤ s.nbits by omega)
    fun k hk => congrArg (phys · (s.cur + k)) (getD_replicate_value .low hk)
  refine ⟨d, ?_, hwritten⟩
  rw [exec, execSparePadding, runCommand_framed _ _ _ (State.inLenIs_zero hinp)]
  simp only [if_neg (show ¬ ((s.opa : Int) - (s.cur : Int) + 1 < 1) by omega), hcount, hd]
  rw [show s.cur + (s.opa + 1 - s.cur) = s.opa + 1 by omega]
  rfl

/-- ZERO of a canonical storage inside the capacity leaves an instance as allocated, apart from its port (R83, R109). -/
theorem exec_zero_eq_allocate (hs : s.StorageInside) :
    exec .zero s = .next { State.allocate s.cap with packet := s.packet, script := s.script } := by
  have hclear : s.clear = { s with data := [], cursor := 0#32 } := by
    rw [← State.clear_data hs.1 hs.2]
    rfl
  rw [exec, execZero, runCommand_framed _ _ _ (State.inLenIs_zero hinp), hclear]
  rfl

end

/-! ### The effects of the pseudo-instructions (R61) -/

/-- A step that presents the packet of a command runs that command. -/
theorem step_packetOf {s : State} {i : Instr} {opa : BitVec 32} {opb : BitVec 64} {inp : List Byte} {rest : List Packet}
    (h : s.script = packetOf i opa opb inp :: rest) : step s = exec i (s.present (packetOf i opa opb inp) rest) :=
  step_decoded h (decode_encode i)

/-- SETCUR to a place inside the capacity, `NBITS` included, as a step. -/
theorem step_setcur {s : State} {a : BitVec 32} {rest : List Packet}
    (hscript : s.script = packetOf (.readField 0#7) a 0#64 [] :: rest) (h : a.toNat ≤ s.nbits) :
    step s = .next (State.respond { s.present (packetOf (.readField 0#7) a 0#64 []) rest with cursor := a } .ok
      { res2 := a }) :=
  (step_packetOf hscript).trans (exec_readField_zero rfl h)

/-- SET_UINT that fits, as a step. -/
theorem step_setUint_fits {s : State} {nb : BitVec 7} {val : BitVec 64} {rest : List Packet}
    (hscript : s.script = packetOf (.setUint nb) 0#32 val [] :: rest) (hn : s.nbits < 2 ^ 32) (hnb : nb.toNat ≤ 32)
    (h : s.cur + nb.toNat ≤ s.nbits) :
    ∃ d, step s = .next (State.respond { s.present (packetOf (.setUint nb) 0#32 val []) rest with
          data := d, cursor := BitVec.ofNat 32 (s.cur + nb.toNat) } .ok {}) ∧
      BitsWritten s { s with data := d } s.cur nb.toNat (fun i => val.getLsbD (nb.toNat - 1 - (i - s.cur))) := by
  rw [step_packetOf hscript]
  exact exec_setUint_fits (s := s.present (packetOf (.setUint nb) 0#32 val []) rest) rfl hn hnb h

theorem resNat_toNat (b : Bool) : resNat b.toNat = if b then 1#64 else 0#64 := by
  cases b <;> rfl

/-- CURSOR advanced by one bit, as the register's own sum. -/
theorem State.ofNat_cur_succ (s : State) : BitVec.ofNat 32 (s.cur + 1) = s.cursor + 1#32 := by
  rw [BitVec.ofNat_add, State.cur, BitVec.ofNat_toNat, BitVec.setWidth_eq]

/-- Settles O54: each expansion is one command, run from the packet that presents it. -/
theorem pseudoInstructionEffects : Obligations.PseudoInstructionEffects := by
  refine ⟨?setcur, ?getNextBit, ?getBitAtCursor, ?setByte, ?padTo, ?clear⟩
  case setcur =>
    rintro s a r p rest ⟨⟩ hscript -
    exact ⟨step_setcur hscript, fun h => (step_packetOf hscript).trans (exec_readField_beyond rfl (by decide) h)⟩
  case getNextBit =>
    rintro s r p rest ⟨⟩ hscript h
    rw [← State.ofNat_cur_succ, ← resNat_toNat]
    exact (step_packetOf hscript).trans (exec_getUint_one rfl h)
  case getBitAtCursor =>
    rintro s p rest ⟨⟩ hscript h
    rw [← resNat_toNat]
    exact (step_packetOf hscript).trans (exec_getBit_lt rfl h)
  case setByte =>
    rintro s r val p rest ⟨⟩ hscript ⟨hcap, -⟩ h
    obtain ⟨d, hd, hwritten⟩ := step_setUint_fits hscript (State.nbits_lt hcap) (by decide) h
    exact ⟨_, hd, rfl, hwritten⟩
  case padTo =>
    rintro s r n p rest hp hscript ⟨hcap, -⟩ hcur h
    have hn := State.nbits_lt hcap
    have hopa : (s.present (packetOf .sparePadding (BitVec.ofNat 32 (n - 1)) 0#64 []) rest).opa = n - 1 :=
      Nat.mod_eq_of_lt (by omega)
    rw [Pseudo.expand, if_pos (by omega)] at hp
    cases hp
    obtain ⟨d, hd, hwritten⟩ := exec_sparePadding_fits
      (s := s.present (packetOf .sparePadding (BitVec.ofNat 32 (n - 1)) 0#64 []) rest) rfl hn
      (by rw [hopa, State.present_cur]; omega) (by rw [hopa, State.present_nbits]; omega)
    rw [hopa, Nat.sub_add_cancel (by omega)] at hd hwritten
    exact ⟨_, (step_packetOf hscript).trans hd, rfl, hwritten⟩
  case clear =>
    rintro s r p rest ⟨⟩ hscript ⟨-, hwf, hbound, -⟩
    exact (step_packetOf hscript).trans (exec_zero_eq_allocate rfl ⟨hwf, hbound⟩)

/-! ### The integer round trip (R82) -/

/-- A run of bits that are the low `n` bits of a number, most significant first, is that number modulo `2^n`. -/
theorem uintAt_eq_mod {s : State} {start n x : Nat} (h : ∀ j < n, s.bitRead (start + j) = x.testBit (n - 1 - j)) :
    uintAt s start n = x % 2 ^ n := by
  induction n generalizing x with
  | zero => rw [pow_zero, Nat.mod_one]; rfl
  | succ n ih =>
    have hinit : uintAt s start n = x / 2 % 2 ^ n := ih fun j hj => by
      rw [h j (by omega), ← Nat.testBit_add_one]
      congr 1
      omega
    have hlast : (s.bitRead (start + n)).toNat = x % 2 := by
      rw [h n (by omega), Nat.add_sub_cancel, Nat.sub_self, Nat.toNat_testBit, pow_zero, Nat.div_one]
    rw [uintAt_succ, hinit, hlast, pow_succ', Nat.mod_mul, Nat.add_comm]

/-- Settles O50: SET_UINT leaves the bits of the value, SETCUR takes CURSOR back to them, and GET_UINT reads them. -/
theorem integerRoundTrip : Obligations.IntegerRoundTrip := by
  rintro s nb val ⟨hcap, -, -, hcur, -⟩ hnb hfit hscript
  have hn := State.nbits_lt hcap
  obtain ⟨d, ht, hbits, -⟩ := step_setUint_fits hscript hn hnb hfit
  have hvalue : uintAt { s with data := d } s.cur nb.toNat = val.toNat % 2 ^ nb.toNat :=
    uintAt_eq_mod fun j hj => by
      rw [hbits, if_pos ⟨Nat.le_add_right _ _, by omega⟩]
      exact congrArg (fun k => val.getLsbD (nb.toNat - 1 - k)) (Nat.add_sub_cancel_left ..)
  have hsmall : val.toNat % 2 ^ nb.toNat < 2 ^ 64 :=
    (Nat.mod_lt _ (by positivity)).trans_le (Nat.pow_le_pow_right (by decide) (by omega))
  refine ⟨_, _, _, ht, step_setcur rfl hcur, (step_packetOf rfl).trans (exec_getUint_fits rfl hn hnb hfit), rfl, ?_,
    Nat.mod_eq_of_lt (hfit.trans_lt hn)⟩
  calc (resNat (uintAt { s with data := d } s.cur nb.toNat)).toNat
    _ = val.toNat % 2 ^ nb.toNat % 2 ^ 64 := by rw [hvalue]; rfl
    _ = val.toNat % 2 ^ nb.toNat := Nat.mod_eq_of_lt hsmall

end Sys2Proof.Machine
end

section
/-! PROOFS. The five commands of 40_positional.md: bit access at an explicit index on both sides of `NBITS` (R63 to R65),
and the two scans, found and not found (R66, R67). -/

namespace Sys2Proof.Machine

section
variable {s : State} (hinp : s.inp = [])
include hinp

/-! ### Access from `NBITS` on (R63 to R65) -/

/-- GET_BIT outside the capacity changes nothing but the response (R63). -/
theorem exec_getBit_ge (h : s.nbits ≤ s.opa) : exec .getBit s = .next (s.respond .outOfRange {}) := by
  rw [exec, execGetBit, runCommand_framed _ _ _ (State.inLenIs_zero hinp), getAt_ge h]; rfl

/-- GET_BIT_HL outside the capacity changes nothing but the response (R64). -/
theorem exec_getBitHl_ge (h : s.nbits ≤ s.opa) : exec .getBitHl s = .next (s.respond .outOfRange {}) := by
  rw [exec, execGetBitHl, runCommand_framed _ _ _ (State.inLenIs_zero hinp), getAt_ge h]; rfl

/-- SET_BIT outside the capacity changes nothing but the response (R65). -/
theorem exec_setBit_ge (v : BitVal) (h : s.nbits ≤ s.opa) :
    exec (.setBit v) s = .next (s.respond .outOfRange {}) := by
  rw [exec, execSetBit, runCommand_framed _ _ _ (State.inLenIs_zero hinp), setAt_ge h]; rfl

/-! ### The scans (R66, R67) -/

/-- FIND_FIRST_BIT answers with the index of the first plain bit of its value from OPA on (R66). -/
theorem exec_findFirstBit_first {v : BitVal} {i : Nat} (hle : s.opa ≤ i) (hlt : i < s.nbits)
    (hbit : plainVal (s.bitRead i) = v) (hbefore : ∀ j, s.opa ≤ j → j < i → plainVal (s.bitRead j) ≠ v) :
    exec (.findFirstBit v) s = .next (s.respond .ok { res := resNat i }) := by
  rw [exec, execFindFirstBit, runCommand_framed _ _ _ (State.inLenIs_zero hinp),
    findFrom_eq_some hle (by omega) hbit hbefore]
  rfl

/-- FIND_FIRST_BIT with no plain bit of its value from OPA on ends with NOT_FOUND (R66). -/
theorem exec_findFirstBit_notFound {v : BitVal} (hnone : NotFoundWhen s (.findFirstBit v)) :
    exec (.findFirstBit v) s = .next (s.respond .notFound {}) := by
  rw [exec, execFindFirstBit, runCommand_framed _ _ _ (State.inLenIs_zero hinp),
    findFrom_eq_none fun j hle hlt => hnone j hle (by omega)]
  rfl

/-- NTH_SET_BIT answers with the index of the 1 that has OPA - 1 ones below it (R67). -/
theorem exec_nthSetBit_nth {i : Nat} (hlt : i < s.nbits) (hbit : s.bitRead i = true)
    (hcount : onesBelow s i + 1 = s.opa) : exec .nthSetBit s = .next (s.respond .ok { res := resNat i }) := by
  have hscan : nthFrom s.opa s 0 0 s.nbits = some i :=
    nthFrom_eq_some (Nat.zero_le i) (by omega) hbit hcount
  rw [exec, execNthSetBit, runCommand_framed _ _ _ (State.inLenIs_zero hinp), hscan]
  rfl

/-- NTH_SET_BIT with too few ones in the capacity, or asked for none, ends with NOT_FOUND (R67). -/
theorem exec_nthSetBit_notFound (hfew : NotFoundWhen s .nthSetBit) :
    exec .nthSetBit s = .next (s.respond .notFound {}) := by
  have hscan : nthFrom s.opa s 0 0 s.nbits = none :=
    nthFrom_eq_none (i := 0) (by rwa [Nat.zero_add])
  rw [exec, execNthSetBit, runCommand_framed _ _ _ (State.inLenIs_zero hinp), hscan]
  rfl

end

/-! ### The plain view, and one written bit -/

theorem plainVal_injective : Function.Injective plainVal := by decide

/-- The plain view never holds `low` (R35). -/
theorem plainVal_ne_low (b : Bool) : plainVal b ≠ .low := by cases b <;> decide

/-- The plain view never holds `high` (R35). -/
theorem plainVal_ne_high (b : Bool) : plainVal b ≠ .high := by cases b <;> decide

/-- A single bit write is `BitsWritten` of one bit. -/
theorem bitsWritten_bitWrite (s : State) (i : Nat) (bit : Nat → Bool) :
    BitsWritten s (s.bitWrite i (bit i)) i 1 bit := by
  refine bitsWritten_of_writeBits (bits := [bit i]) rfl rfl fun k hk => ?_
  obtain rfl : k = 0 := by omega
  rfl

/-! ### The statements -/

/-- Settles O28: inside the capacity SET_BIT is one bit write, outside it a response. -/
theorem setBitWrites : Obligations.SetBitWrites := by
  refine ⟨by decide, fun s v hinp h => ?_, fun s v hinp h => exec_setBit_ge hinp v h⟩
  exact ⟨_, exec_setBit_lt v hinp h, rfl, (bitsWritten_bitWrite s s.opa (phys v)).congr rfl⟩

/-- Settles O29: the scan stops at the first plain bit of the value, and `low` and `high` are no plain values. -/
theorem findFirstBitScans : Obligations.FindFirstBitScans := by
  refine ⟨by decide, ?first, ?absent, ?noPlainValue⟩
  case first =>
    intro s b i hinp hle hlt hbit hbefore
    exact exec_findFirstBit_first hinp hle hlt (congrArg plainVal hbit)
      fun j h1 h2 => plainVal_injective.ne (hbefore j h1 h2)
  case absent =>
    intro s b hinp hnone
    exact exec_findFirstBit_notFound hinp fun j h1 h2 => plainVal_injective.ne (hnone j h1 h2)
  case noPlainValue =>
    rintro s v hinp (rfl | rfl)
    · exact exec_findFirstBit_notFound hinp fun _ _ _ => plainVal_ne_low _
    · exact exec_findFirstBit_notFound hinp fun _ _ _ => plainVal_ne_high _

/-- Settles O30: the scan's count at an index is the number of ones below it. -/
theorem nthSetBitCounts : Obligations.NthSetBitCounts :=
  ⟨by decide, fun _ _ hinp hlt hbit hcount => exec_nthSetBit_nth hinp hlt hbit hcount,
    fun _ hinp hfew => exec_nthSetBit_notFound hinp hfew⟩

/-- Settles O26: the bit at OPA inside the capacity, OUT_OF_RANGE outside it. -/
theorem getBitReads : Obligations.GetBitReads := by
  refine ⟨by decide, fun s hinp h => ?_, fun s hinp h => exec_getBit_ge hinp h⟩
  rw [exec_getBit_lt hinp h, resNat_toNat]
  rfl

/-- Settles O27: the low/high view at OPA inside the capacity, OUT_OF_RANGE outside it. -/
theorem getBitHlReads : Obligations.GetBitHlReads := by
  refine ⟨by decide, fun s hinp h => ?_, fun s hinp h => exec_getBitHl_ge hinp h⟩
  rw [exec_getBitHl_lt hinp h, State.hlView, resVal_hlVal]
  rfl

end Sys2Proof.Machine
end

section
/-! PROOFS. 41_sequential.md: access at CURSOR and at an external cursor (R69 to R81), and the field round trip (R82).
Five commands end in the bit-serial writer. How such a command ends, with bits that fit and with bits that do not, is said
once, for any start and any values, and instantiated for each. -/

namespace Sys2Proof.Machine

/-! ### Words written out (R69, R72, R73, R80, R87) -/

/-- Settles O4: six of the words are the encodings of their commands, and RUN_LENGTH excludes the V field of the last. -/
theorem writtenOutWordsDecode : Obligations.WrittenOutWordsDecode :=
  ⟨decode_encode (.setNextBit .high), decode_encode (.setUint 3#7), decode_encode (.setUint 32#7),
    decode_encode (.getUint 1#7), decode_encode (.writeField 4#7), decode_encode (.runLength true), rfl⟩

/-! ### One bit at CURSOR (R69, R70) -/

section
variable {s : State} (hinp : s.inp = [])
include hinp

/-- SET_NEXT_BIT below `NBITS` writes one bit at CURSOR and advances it (R69). -/
theorem exec_setNextBit_lt (v : BitVal) (h : s.cur < s.nbits) :
    exec (.setNextBit v) s = .next (((s.bitWrite s.cur (phys v s.cur)).setCur (s.cur + 1)).respond .ok {}) := by
  rw [exec, execSetNextBit, runCommand_framed _ _ _ (State.inLenIs_zero hinp), setNext_lt h]; rfl

/-- SET_NEXT_BIT at `NBITS` changes nothing but the response (R69). -/
theorem exec_setNextBit_ge (v : BitVal) (h : s.nbits ≤ s.cur) :
    exec (.setNextBit v) s = .next (s.respond .outOfRange {}) := by
  rw [exec, execSetNextBit, runCommand_framed _ _ _ (State.inLenIs_zero hinp), setNext_ge h]; rfl

/-- GET_NEXT_BIT_HL below `NBITS` answers with the low/high view at CURSOR and advances it (R70). -/
theorem exec_getNextBitHl_lt (h : s.cur < s.nbits) :
    exec .getNextBitHl s = .next ((s.setCur (s.cur + 1)).respond .ok { res := resVal (s.hlView s.cur) }) := by
  rw [exec, execGetNextBitHl, runCommand_framed _ _ _ (State.inLenIs_zero hinp), getNext_lt h]; rfl

/-- GET_NEXT_BIT_HL at `NBITS` changes nothing but the response (R70). -/
theorem exec_getNextBitHl_ge (h : s.nbits ≤ s.cur) : exec .getNextBitHl s = .next (s.respond .outOfRange {}) := by
  rw [exec, execGetNextBitHl, runCommand_framed _ _ _ (State.inLenIs_zero hinp), getNext_ge h]; rfl

end

/-- Settles O31: below `NBITS` one bit write and an advance, at `NBITS` a response. -/
theorem setNextBitWrites : Obligations.SetNextBitWrites := by
  refine ⟨by decide, fun s v hinp h => ?_, fun s v hinp h => exec_setNextBit_ge hinp v h.ge⟩
  refine ⟨_, exec_setNextBit_lt hinp v h, ?_, (bitsWritten_bitWrite s s.cur (phys v)).congr rfl⟩
  rw [← State.ofNat_cur_succ]
  rfl

/-- Settles O32: the low/high view at CURSOR below `NBITS`, OUT_OF_RANGE at it. -/
theorem getNextBitHlReads : Obligations.GetNextBitHlReads := by
  refine ⟨by decide, fun s hinp h => ?_, fun s hinp h => exec_getNextBitHl_ge hinp h.ge⟩
  rw [exec_getNextBitHl_lt hinp h, State.hlView, resVal_hlVal, ← State.ofNat_cur_succ]
  rfl

/-! ### A command that ends in the bit-serial writer (R68) -/

/-- `o` is a command that writes the values `vs` from index `start` on and then answers `r`; a failure leaves `r2` in
RES2. -/
def WritesFrom (o : Host.Outcome State Fault Refusal) (s : State) (start : Nat) (vs : List BitVal) (r2 : BitVec 32)
    (r : Response) : Prop :=
  o = .next (finish r2 ((setNextAll vs (s.setCur start)).bind fun _ t => .done r t))

section
variable {o : Host.Outcome State Fault Refusal} {s : State} {start n : Nat} {vs : List BitVal} {r2 : BitVec 32}
  {r : Response} {bit : Nat → Bool} (ho : WritesFrom o s start vs r2 r) (hn : s.nbits < 2 ^ 32) (hlen : vs.length = n)
  (hbit : ∀ k < n, phys (vs.getD k .zero) (start + k) = bit (start + k))
include ho hn hlen hbit

/-- The writer's bits fit: they are written, CURSOR stands after them, and the command answers OK. -/
theorem WritesFrom.fits (h : start + n ≤ s.nbits) :
    ∃ t, o = .next t ∧ t = State.respond { s with data := t.data, cursor := BitVec.ofNat 32 (start + n) } .ok r ∧
      BitsWritten s t start n bit := by
  have hcur : (s.setCur start).cur = start := State.setCur_cur s (by omega)
  obtain ⟨d, hd, hwritten⟩ := setNextAll_writes (s := s.setCur start) hn hlen (by rwa [hcur]) (by rwa [hcur])
  rw [WritesFrom, hd] at ho
  rw [hcur] at ho hwritten
  exact ⟨_, ho, rfl, hwritten⟩

/-- The writer's bits do not fit: those below `NBITS` are written, CURSOR stands there, and the command ends with
OUT_OF_RANGE. -/
theorem WritesFrom.overflows (hstart : start ≤ s.nbits) (h : s.nbits < start + n) :
    ∃ t, o = .next t ∧
      t = State.respond { s with data := t.data, cursor := BitVec.ofNat 32 s.nbits } .outOfRange { res2 := r2 } ∧
      BitsWritten s t start (s.nbits - start) bit := by
  subst hlen
  have hcur : (s.setCur start).cur = start := State.setCur_cur s (by omega)
  obtain ⟨d, hd, hwritten⟩ := setNextAll_overflows (s := s.setCur start) hn (by rwa [hcur]) (by rwa [hcur])
    (by rwa [hcur])
  rw [WritesFrom, hd] at ho
  rw [hcur] at hwritten
  exact ⟨_, ho, rfl, hwritten⟩

end

/-! ### The five writers -/

/-- SET_BITS with one entry for each of OPA writes their values at CURSOR (R71). -/
theorem exec_setBits_writes {s : State} (hinp : s.inp.length = s.opa) :
    WritesFrom (exec .setBits s) s s.cur (s.inp.map entryValue) 0#32 {} := by
  rw [WritesFrom, State.setCur_self, exec, execSetBits, runCommand_framed _ _ _ (State.inLenIs_of_length hinp)]

section
variable {s : State} {nb : BitVec 7} (hinp : s.inp = [])
include hinp

/-- FILL writes OPA copies of its value at CURSOR (R75). -/
theorem exec_fill_writes (v : BitVal) : WritesFrom (exec (.fill v) s) s s.cur (List.replicate s.opa v) 0#32 {} := by
  rw [WritesFrom, State.setCur_self, exec, execFill, runCommand_framed _ _ _ (State.inLenIs_zero hinp)]

/-- SET_UINT of a legal width writes the low bits of OPB[31:0] at CURSOR (R72). -/
theorem exec_setUint_writes (hnb : nb.toNat ≤ 32) :
    WritesFrom (exec (.setUint nb) s) s s.cur (valueBits s.opbLow nb.toNat) 0#32 {} := by
  rw [WritesFrom, State.setCur_self, exec, execSetUint, runCommand_framed _ _ _ (State.inLenIs_zero hinp),
    if_neg (by omega)]

/-- SPARE_PADDING up to an index from CURSOR on writes `low` through that index (R76). -/
theorem exec_sparePadding_writes (h : s.cur ≤ s.opa) :
    WritesFrom (exec .sparePadding s) s s.cur (List.replicate (s.opa + 1 - s.cur) .low) 0#32 {} := by
  have hcount : ((s.opa : Int) - (s.cur : Int) + 1).toNat = s.opa + 1 - s.cur := by omega
  rw [WritesFrom, State.setCur_self, exec, execSparePadding, runCommand_framed _ _ _ (State.inLenIs_zero hinp)]
  simp only [if_neg (show ¬ ((s.opa : Int) - (s.cur : Int) + 1 < 1) by omega), hcount]

/-- WRITE_FIELD of a legal width from a start inside the capacity writes the low bits of OPB there (R80). -/
theorem exec_writeField_writes (hnb : nb.toNat ≤ 64) (h : s.opa ≤ s.nbits) :
    WritesFrom (exec (.writeField nb) s) s s.opa (valueBits s.opb nb.toNat) s.packet.opa
      { res2 := BitVec.ofNat 32 (s.opa + nb.toNat) } := by
  rw [WritesFrom, exec, execWriteField, runCommand_framed _ _ _ (State.inLenIs_zero hinp), if_neg (by omega),
    if_neg (by omega)]

/-! ### Their refusals before the first bit -/

/-- SPARE_PADDING below CURSOR writes nothing and answers OK (R76). -/
theorem exec_sparePadding_noop (h : s.opa < s.cur) : exec .sparePadding s = .next (s.respond .ok {}) := by
  rw [exec, execSparePadding, runCommand_framed _ _ _ (State.inLenIs_zero hinp)]
  simp only [if_pos (show (s.opa : Int) - (s.cur : Int) + 1 < 1 by omega), finish_done]

/-- SET_UINT of a width above 32 changes nothing but the response (R72). -/
theorem exec_setUint_width (h : 32 < nb.toNat) : exec (.setUint nb) s = .next (s.respond .invalidArgument {}) := by
  rw [exec, execSetUint, runCommand_framed _ _ _ (State.inLenIs_zero hinp), if_pos h]; rfl

/-- WRITE_FIELD of a width above 64 changes nothing but the response (R80). -/
theorem exec_writeField_width (h : 64 < nb.toNat) :
    exec (.writeField nb) s = .next (s.respond .invalidArgument { res2 := s.packet.opa }) := by
  rw [exec, execWriteField, runCommand_framed _ _ _ (State.inLenIs_zero hinp), if_pos h]; rfl

/-- WRITE_FIELD from a start beyond `NBITS` changes nothing but the response (R80). -/
theorem exec_writeField_beyond (hnb : nb.toNat ≤ 64) (h : s.nbits < s.opa) :
    exec (.writeField nb) s = .next (s.respond .outOfRange { res2 := s.packet.opa }) := by
  rw [exec, execWriteField, runCommand_framed _ _ _ (State.inLenIs_zero hinp), if_neg (by omega), if_pos h]; rfl

end

/-! ### The bits that the writers write -/

/-- An entry of SET_BITS stands for the code in its two low bits (R71). -/
theorem phys_entryValue (inp : List Byte) (start : Nat) {k : Nat} (h : k < inp.length) :
    phys ((inp.map entryValue).getD k .zero) (start + k)
      = phys (BitVal.ofCode ((inp.getD (start + k - start) 0#8).extractLsb' 0 2)) (start + k) := by
  simp [entryValue, List.getD_eq_getElem?_getD, h]

/-- The low bits of a value are written most significant first (R29). -/
theorem phys_valueBits {w : Nat} (val : BitVec w) (start : Nat) {n k : Nat} (h : k < n) :
    phys ((valueBits val n).getD k .zero) (start + k) = val.getLsbD (n - 1 - (start + k - start)) := by
  rw [getD_valueBits val h, phys_plainVal, Nat.add_sub_cancel_left]

/-- Up to 32 low bits of OPB are those of OPB[31:0] (R53). -/
theorem valueBits_opbLow (s : State) {n : Nat} (h : n ≤ 32) : valueBits s.opbLow n = valueBits s.opb n := by
  refine List.map_congr_left fun j hj => ?_
  have hj := List.mem_range.1 hj
  rw [State.opbLow, BitVec.getLsbD_extractLsb', Nat.zero_add, decide_eq_true (by omega), Bool.true_and]

/-- Copies of a value are written each by its own position (R75). -/
theorem phys_replicate (v : BitVal) (start : Nat) {n k : Nat} (h : k < n) :
    phys ((List.replicate n v).getD k .zero) (start + k) = phys v (start + k) :=
  congrArg (phys · (start + k)) (getD_replicate_value v h)

/-- Settles O33: the writer over the entries' values, and the framing check. -/
theorem setBitsWritesEntries : Obligations.SetBitsWritesEntries := by
  have hlen (s : State) (hinp : s.inp.length = s.opa) : (s.inp.map entryValue).length = s.opa :=
    (List.length_map _).trans hinp
  refine ⟨by decide, ?fits, ?overflows, fun s hinp => badFramingIsIllegal .setBits s hinp⟩
  case fits =>
    rintro s ⟨hcap, -⟩ hinp h
    exact (exec_setBits_writes hinp).fits (State.nbits_lt hcap) (hlen s hinp)
      (fun k hk => phys_entryValue s.inp s.cur (hinp ▸ hk)) h
  case overflows =>
    rintro s ⟨hcap, -, -, hcur, -⟩ hinp h
    exact (exec_setBits_writes hinp).overflows (State.nbits_lt hcap) (hlen s hinp)
      (fun k hk => phys_entryValue s.inp s.cur (hinp ▸ hk)) hcur h

/-- Settles O34: the writer over the low bits of OPB, and the check of the width. -/
theorem setUintWrites : Obligations.SetUintWrites := by
  refine ⟨by decide, ?fits, ?overflows, fun s nb hinp h => exec_setUint_width hinp h⟩
  case fits =>
    rintro s nb ⟨hcap, -⟩ hinp hnb h
    obtain ⟨d, hd, hwritten⟩ := exec_setUint_fits hinp (State.nbits_lt hcap) hnb h
    exact ⟨_, hd, rfl, hwritten⟩
  case overflows =>
    rintro s nb ⟨hcap, -, -, hcur, -⟩ hinp hnb h
    have hwrites := exec_setUint_writes hinp hnb
    rw [valueBits_opbLow s hnb] at hwrites
    exact hwrites.overflows (State.nbits_lt hcap) (length_valueBits _ _) (fun k hk => phys_valueBits s.opb s.cur hk)
      hcur h

/-- Settles O37: the writer over OPA copies of the value. -/
theorem fillWrites : Obligations.FillWrites := by
  refine ⟨by decide, ?fits, ?overflows⟩
  case fits =>
    rintro s v ⟨hcap, -⟩ hinp h
    exact (exec_fill_writes hinp v).fits (State.nbits_lt hcap) List.length_replicate
      (fun k hk => phys_replicate v s.cur hk) h
  case overflows =>
    rintro s v ⟨hcap, -, -, hcur, -⟩ hinp h
    exact (exec_fill_writes hinp v).overflows (State.nbits_lt hcap) List.length_replicate
      (fun k hk => phys_replicate v s.cur hk) hcur h

/-- Settles O38: no bit is written when OPA is below CURSOR, and else the writer runs over the bits from CURSOR through
OPA. -/
theorem sparePaddingFillsLow : Obligations.SparePaddingFillsLow := by
  refine ⟨by decide, fun s hinp h => exec_sparePadding_noop hinp h, ?fits, ?overflows⟩
  case fits =>
    rintro s ⟨hcap, -⟩ hinp hle h
    obtain ⟨d, hd, hwritten⟩ := exec_sparePadding_fits hinp (State.nbits_lt hcap) hle h
    exact ⟨_, hd, rfl, hwritten⟩
  case overflows =>
    rintro s ⟨hcap, -, -, hcur, -⟩ hinp hle h
    exact (exec_sparePadding_writes hinp hle).overflows (State.nbits_lt hcap) List.length_replicate
      (fun k hk => phys_replicate .low s.cur hk) hcur (by omega)

/-- Settles O42: the writer over the low bits of OPB from OPA on, and the checks of the width and of the start. -/
theorem writeFieldWrites : Obligations.WriteFieldWrites := by
  refine ⟨by decide, ?fits, ?overflows, fun s nb hinp hnb h => exec_writeField_beyond hinp hnb h,
    fun s nb hinp h => exec_writeField_width hinp h⟩
  case fits =>
    rintro s nb ⟨hcap, -⟩ hinp hnb h
    exact (exec_writeField_writes hinp hnb (by omega)).fits (State.nbits_lt hcap) (length_valueBits _ _)
      (fun k hk => phys_valueBits s.opb s.opa hk) h
  case overflows =>
    rintro s nb ⟨hcap, -⟩ hinp hnb hstart h
    exact (exec_writeField_writes hinp hnb hstart).overflows (State.nbits_lt hcap) (length_valueBits _ _)
      (fun k hk => phys_valueBits s.opb s.opa hk) hstart h


/-! ### A command that ends in the bit-serial reader (R68, R73, R79) -/

section
variable {s : State} {nb : BitVec 7} (hinp : s.inp = [])
include hinp

/-- GET_UINT that does not fit leaves CURSOR at `NBITS` and answers with no value (R73). -/
theorem exec_getUint_overflows (hn : s.nbits < 2 ^ 32) (hnb : nb.toNat ≤ 32) (hcur : s.cur ≤ s.nbits)
    (h : s.nbits < s.cur + nb.toNat) :
    exec (.getUint nb) s = .next ((s.setCur s.nbits).respond .outOfRange {}) := by
  rw [exec, execGetUint, runCommand_framed _ _ _ (State.inLenIs_zero hinp), if_neg (by omega),
    getNextBits_full _ _ _ hn hcur h]
  rfl

/-- GET_UINT of a width above 32 changes nothing but the response (R73). -/
theorem exec_getUint_width (h : 32 < nb.toNat) : exec (.getUint nb) s = .next (s.respond .invalidArgument {}) := by
  rw [exec, execGetUint, runCommand_framed _ _ _ (State.inLenIs_zero hinp), if_pos h]; rfl

/-- READ_FIELD that fits answers with the value of the `nb` bits at OPA and leaves CURSOR and RES2 after them (R79). -/
theorem exec_readField_fits (hn : s.nbits < 2 ^ 32) (hnb : nb.toNat ≤ 64) (h : s.opa + nb.toNat ≤ s.nbits) :
    exec (.readField nb) s = .next ((s.setCur (s.opa + nb.toNat)).respond .ok
      { res := resNat (uintAt s s.opa nb.toNat), res2 := BitVec.ofNat 32 (s.opa + nb.toNat) }) := by
  have hcur : (s.setCur s.opa).cur = s.opa := State.setCur_cur s (by omega)
  rw [exec, execReadField, runCommand_framed _ _ _ (State.inLenIs_zero hinp), if_neg (by omega), if_neg (by omega),
    getNextBits_fits _ _ (s.setCur s.opa) hn (by rwa [hcur]), hcur, ← natOfBits_readBits]
  rfl

/-- READ_FIELD that does not fit leaves CURSOR at `NBITS` and RES2 at its start (R79). -/
theorem exec_readField_overflows (hn : s.nbits < 2 ^ 32) (hnb : nb.toNat ≤ 64) (hstart : s.opa ≤ s.nbits)
    (h : s.nbits < s.opa + nb.toNat) :
    exec (.readField nb) s = .next ((s.setCur s.nbits).respond .outOfRange { res2 := s.packet.opa }) := by
  have hcur : (s.setCur s.opa).cur = s.opa := State.setCur_cur s (by omega)
  rw [exec, execReadField, runCommand_framed _ _ _ (State.inLenIs_zero hinp), if_neg (by omega), if_neg (by omega),
    getNextBits_full _ _ (s.setCur s.opa) hn (by rwa [hcur]) (by rwa [hcur])]
  rfl

/-- READ_FIELD of a width above 64 changes nothing but the response (R79). -/
theorem exec_readField_width (h : 64 < nb.toNat) :
    exec (.readField nb) s = .next (s.respond .invalidArgument { res2 := s.packet.opa }) := by
  rw [exec, execReadField, runCommand_framed _ _ _ (State.inLenIs_zero hinp), if_pos h]; rfl

/-! ### The 16-bit reader (R74) -/

/-- GET_INT16_MSB under its guard answers with the value of the first `nb` bits (R74). -/
theorem exec_getInt16Msb_guarded (hnb : nb.toNat ≤ 15) (h : nb.toNat ≤ s.cur) :
    exec (.getInt16Msb nb) s = .next (s.respond .ok { res := resNat (uintAt s 0 nb.toNat) }) := by
  rw [exec, execGetInt16Msb, runCommand_framed _ _ _ (State.inLenIs_zero hinp), if_neg (by omega), natOfBits_readBits]
  rfl

/-- GET_INT16_MSB outside its guard changes nothing but the response (R74). -/
theorem exec_getInt16Msb_unguarded (h : 15 < nb.toNat ∨ s.cur < nb.toNat) :
    exec (.getInt16Msb nb) s = .next (s.respond .invalidArgument {}) := by
  rw [exec, execGetInt16Msb, runCommand_framed _ _ _ (State.inLenIs_zero hinp), if_pos h]; rfl

end

/-- Settles O35: the reader at CURSOR, and the check of the width. -/
theorem getUintReads : Obligations.GetUintReads := by
  refine ⟨by decide, ?fits, ?overflows, fun s nb hinp h => exec_getUint_width hinp h⟩
  case fits =>
    rintro s nb ⟨hcap, -⟩ hinp hnb h
    exact exec_getUint_fits hinp (State.nbits_lt hcap) hnb h
  case overflows =>
    rintro s nb ⟨hcap, -, -, hcur, -⟩ hinp hnb h
    exact exec_getUint_overflows hinp (State.nbits_lt hcap) hnb hcur h

/-- Settles O41: the reader at OPA, and the checks of the width and of the start. -/
theorem readFieldReads : Obligations.ReadFieldReads := by
  refine ⟨by decide, ?fits, ?overflows, fun s nb hinp hnb h => exec_readField_beyond hinp hnb h,
    fun s nb hinp h => exec_readField_width hinp h⟩
  case fits =>
    rintro s nb ⟨hcap, -⟩ hinp hnb h
    exact exec_readField_fits hinp (State.nbits_lt hcap) hnb h
  case overflows =>
    rintro s nb ⟨hcap, -⟩ hinp hnb hstart h
    exact exec_readField_overflows hinp (State.nbits_lt hcap) hnb hstart h

/-- The first sixteen bits are the big-endian word of the first two bytes (R74). -/
theorem uintAt_word (s : State) :
    uintAt s 0 16 = (Memory.read s.data 0).toNat * 256 + (Memory.read s.data 1).toNat := by
  have hhigh := uintAt_byte s 0
  have hlow := uintAt_byte s 1
  rw [← hhigh, ← hlow]
  exact uintAt_add s 0 8 8

/-- Settles O36: the guard of the reader, and its value as the leading part of the first byte or of the first word. -/
theorem getInt16MsbReadsFromTheStart : Obligations.GetInt16MsbReadsFromTheStart := by
  refine ⟨by decide, fun s nb hinp hnb h => exec_getInt16Msb_guarded hinp hnb h,
    fun s nb hinp h => exec_getInt16Msb_unguarded hinp h, fun s n hn => ?byte, fun s n _ hn => ?word⟩
  case byte => rw [uintAt_prefix s 0 hn, ← uintAt_byte]
  case word => rw [uintAt_prefix s 0 (show n ≤ 16 by omega), uintAt_word]

/-! ### Whole bytes at CURSOR (R77, R78) -/

/-- A byte at an index is the value of its eight bits (R30). -/
theorem State.readByte_eq_uintAt (s : State) (i : Nat) : s.readByte i = BitVec.ofNat 8 (uintAt s i 8) := by
  rw [State.readByte, natOfBits_readBits]

/-- A byte at an aligned index is the storage byte (R30). -/
theorem State.readByte_aligned (s : State) (a : Nat) : s.readByte (8 * a) = Memory.read s.data a := by
  rw [State.readByte_eq_uintAt, uintAt_byte, BitVec.ofNat_toNat, BitVec.setWidth_eq]

section
variable {s : State}

/-- GET_BYTES that fits answers with the OPA bytes at CURSOR and advances over them (R77). -/
theorem exec_getBytes_fits (hinp : s.inp = []) (h : s.cur + 8 * s.opa ≤ s.nbits) :
    exec .getBytes s = .next ((s.setCur (s.cur + 8 * s.opa)).respond .ok
      { out := (List.range s.opa).map fun k => s.readByte (s.cur + 8 * k) }) := by
  rw [exec, execGetBytes, runCommand_framed _ _ _ (State.inLenIs_zero hinp), if_neg (by omega)]; rfl

/-- GET_BYTES that does not fit changes nothing but the response (R77). -/
theorem exec_getBytes_outOfRange (hinp : s.inp = []) (h : s.nbits < s.cur + 8 * s.opa) :
    exec .getBytes s = .next (s.respond .outOfRange {}) := by
  rw [exec, execGetBytes, runCommand_framed _ _ _ (State.inLenIs_zero hinp), if_pos h]; rfl

/-- SET_BYTES that fits writes the bits of its bytes at CURSOR and advances over them (R78). -/
theorem exec_setBytes_fits (hinp : s.inp.length = s.opa) (h : s.cur + 8 * s.opa ≤ s.nbits) :
    exec .setBytes s = .next
      (((s.writeBits s.cur (s.inp.flatMap bitsOfByte)).setCur (s.cur + 8 * s.opa)).respond .ok {}) := by
  rw [exec, execSetBytes, runCommand_framed _ _ _ (State.inLenIs_of_length hinp), if_neg (by omega)]; rfl

/-- SET_BYTES that does not fit changes nothing but the response (R78). -/
theorem exec_setBytes_outOfRange (hinp : s.inp.length = s.opa) (h : s.nbits < s.cur + 8 * s.opa) :
    exec .setBytes s = .next (s.respond .outOfRange {}) := by
  rw [exec, execSetBytes, runCommand_framed _ _ _ (State.inLenIs_of_length hinp), if_pos h]; rfl

end

/-- Settles O39: each byte is its eight bits, and at an aligned CURSOR the storage byte. -/
theorem getBytesReads : Obligations.GetBytesReads := by
  refine ⟨by decide, ?bits, ?aligned, fun s hinp h => exec_getBytes_outOfRange hinp h⟩
  case bits =>
    intro s hinp h
    rw [exec_getBytes_fits hinp h]
    simp only [State.readByte_eq_uintAt]
    rfl
  case aligned =>
    intro s hinp h haligned
    refine ⟨_, exec_getBytes_fits hinp h, List.map_congr_left fun k _ => ?_⟩
    rw [← State.readByte_aligned]
    congr 1
    omega

/-- Settles O40: an unchecked run of the bytes' bits behind the checks of the length and of the range. -/
theorem setBytesWrites : Obligations.SetBytesWrites := by
  refine ⟨by decide, fun s hinp h => ?_, fun s hinp h => exec_setBytes_outOfRange hinp h,
    fun s hinp => badFramingIsIllegal .setBytes s hinp⟩
  refine ⟨_, exec_setBytes_fits hinp h, ?_, ?_⟩
  · rw [State.writeBits_eq]
    rfl
  · refine bitsWritten_of_writeBits (bits := s.inp.flatMap bitsOfByte) rfl (by rw [length_bitsOfBytes, hinp])
      fun k _ => ?_
    rw [getD_bitsOfBytes, Nat.add_sub_cancel_left]

/-! ### Hex digits (R81) -/

/-- UNHEX takes any IN of a length that R17 allows (R57). -/
theorem State.inLenAny_of_lt {s : State} (h : s.inp.length < 2 ^ 32) : s.inLenAny = true :=
  decide_eq_true h

/-- UNHEX with `k` good digits: it goes on at digit `k`, with the digits before it written and CURSOR after them
(R81). -/
theorem exec_unhex_digits {s : State} {k : Nat} (hn : s.nbits < 2 ^ 32) (hinp : s.inp.length < 2 ^ 32)
    (hk : k ≤ 2 * s.cap) (hdigits : ∀ j < k, hexDigit (charAt s.inp j) ≠ none) :
    ∃ d, exec .unhex s = .next (finish 0#32 ((unhexFrom s.inp k (2 * s.cap - k)
          { s with data := d, cursor := if k = 0 then s.cursor else BitVec.ofNat 32 (4 * k) }).bind
            fun _ t => .done {} t)) ∧
      BitsWritten s { s with data := d } 0 (4 * k) (hexBit s.inp) := by
  obtain ⟨d, hd, hwritten⟩ := unhexFrom_digits s.inp s hn 0 k (by unfold State.nbits; omega)
    (fun j _ hj => hdigits j (by omega)) (2 * s.cap - k)
  rw [Nat.add_sub_cancel' hk, Nat.zero_add] at hd
  refine ⟨d, ?_, hwritten⟩
  rw [exec, execUnhex, runCommand_framed _ _ _ (State.inLenAny_of_lt hinp), hd]

/-- A bad character ends UNHEX where it stands (R81). -/
theorem unhexFrom_bad {inp : List Byte} {i n : Nat} (h : hexDigit (charAt inp i) = none) (s : State) :
    unhexFrom inp i (n + 1) s = .raised .malformedInput s := by
  rw [unhexFrom, h]

/-- A legal capacity holds at least one byte (R8). -/
theorem cap_pos {cap : Nat} (h : capacityOk cap = true) : 0 < cap := by
  simp only [capacityOk, Bool.and_eq_true, decide_eq_true_eq] at h
  exact h.1

/-- Settles O43: all the digits wanted, or those before the first bad character; and the ranges of the digit
characters. -/
theorem unhexLoadsDigits : Obligations.UnhexLoadsDigits := by
  refine ⟨by decide, ?all, ?bad, by decide, by decide, ?noDigit⟩
  case all =>
    rintro s ⟨hcap, -⟩ hinp hdigits
    obtain ⟨d, hd, hwritten⟩ := exec_unhex_digits (State.nbits_lt hcap) hinp le_rfl hdigits
    have hpos := cap_pos hcap
    have hbits : 4 * (2 * s.cap) = s.nbits := by unfold State.nbits; omega
    rw [Nat.sub_self, if_neg (by omega), hbits] at hd
    rw [hbits] at hwritten
    exact ⟨_, hd, rfl, hwritten⟩
  case bad =>
    rintro s k ⟨hcap, -⟩ hinp hk hdigits hbad
    obtain ⟨d, hd, hwritten⟩ := exec_unhex_digits (State.nbits_lt hcap) hinp hk.le hdigits
    rw [show 2 * s.cap - k = 2 * s.cap - k - 1 + 1 by omega, unhexFrom_bad hbad] at hd
    exact ⟨_, hd, rfl, hwritten⟩
  case noDigit =>
    intro c hdecimal hupper hlower
    simp only [hexDigit, if_neg hdecimal, if_neg hupper, if_neg hlower]

/-! ### The field round trip (R82) -/

/-- A run that holds the low `n` bits of a value, most significant first, reads as the value modulo `2^n`. -/
theorem BitsWritten.uintAt_value {s t : State} {start n w : Nat} {val : BitVec w}
    (h : BitsWritten s t start n fun i => val.getLsbD (n - 1 - (i - start))) :
    uintAt t start n = val.toNat % 2 ^ n :=
  uintAt_eq_mod fun j hj => by
    rw [h.1, if_pos ⟨Nat.le_add_right _ _, by omega⟩]
    exact congrArg (fun k => val.getLsbD (n - 1 - k)) (Nat.add_sub_cancel_left ..)

/-- The value of up to 64 bits fits RES. -/
theorem resNat_uintAt (s : State) (start : Nat) {n : Nat} (hn : n ≤ 64) :
    (resNat (uintAt s start n)).toNat = uintAt s start n :=
  Nat.mod_eq_of_lt ((uintAt_lt s start n).trans_le (Nat.pow_le_pow_right (by decide) hn))

/-- WRITE_FIELD that fits, as a step. -/
theorem step_writeField_fits {s : State} {nb : BitVec 7} {a : BitVec 32} {val : BitVec 64} {rest : List Packet}
    (hscript : s.script = packetOf (.writeField nb) a val [] :: rest) (hinv : s.Inv) (hnb : nb.toNat ≤ 64)
    (h : a.toNat + nb.toNat ≤ s.nbits) :
    ∃ d, step s = .next (State.respond { s.present (packetOf (.writeField nb) a val []) rest with
          data := d, cursor := BitVec.ofNat 32 (a.toNat + nb.toNat) } .ok
            { res2 := BitVec.ofNat 32 (a.toNat + nb.toNat) }) ∧
      BitsWritten s { s with data := d } a.toNat nb.toNat (fun i => val.getLsbD (nb.toNat - 1 - (i - a.toNat))) := by
  obtain ⟨-, hfits, -⟩ := writeFieldWrites
  obtain ⟨t, ht, hstate, hwritten⟩ := hfits (s.present (packetOf (.writeField nb) a val []) rest) nb hinv rfl hnb h
  exact ⟨t.data, (step_packetOf hscript).trans (ht.trans (congrArg Host.Outcome.next hstate)), hwritten.congr rfl⟩

/-- Settles O51: WRITE_FIELD leaves the bits of the value at the start, and READ_FIELD reads them there. -/
theorem fieldRoundTrip : Obligations.FieldRoundTrip := by
  intro s nb a val hinv hnb hfit hscript
  have hn : s.nbits < 2 ^ 32 := State.nbits_lt hinv.1
  obtain ⟨d, ht, hwritten⟩ := step_writeField_fits hscript hinv hnb hfit
  refine ⟨_, _, ht, (step_packetOf rfl).trans (exec_readField_fits rfl hn hnb hfit), rfl, ?_,
    Nat.mod_eq_of_lt (hfit.trans_lt hn)⟩
  calc (resNat (uintAt { s with data := d } a.toNat nb.toNat)).toNat
    _ = uintAt { s with data := d } a.toNat nb.toNat := resNat_uintAt _ _ hnb
    _ = val.toNat % 2 ^ nb.toNat := hwritten.uintAt_value

end Sys2Proof.Machine
end

section
/-! PROOFS. 42_whole_buffer.md: clearing, copying in and out, rendering, the leading run, and the shift (R83 to R88).
What a framed command answers is said once for each; two shifts compose because a canonical storage is determined by its
bits, and bit `i` after a shift by `n` is bit `i + n` before it. -/

namespace Sys2Proof.Machine

/-! ### Clearing, copying and rendering (R83 to R86) -/

/-- ZERO clears the storage and CURSOR and answers OK (R83). -/
theorem exec_zero_framed {s : State} (hinp : s.inp = []) : exec .zero s = .next (s.clear.respond .ok {}) := by
  rw [exec, execZero, runCommand_framed _ _ _ (State.inLenIs_zero hinp), finish_done]

/-- Settles O44: the storage is cleared byte by byte inside the capacity. -/
theorem zeroClears : Obligations.ZeroClears :=
  ⟨by decide, fun s hinp => ⟨_, exec_zero_framed hinp, rfl, State.read_clear s⟩⟩

/-- Settles O45: OUT is the read of `CAP_BYTES` bytes from address 0. -/
theorem packCopiesOut : Obligations.PackCopiesOut := by
  refine ⟨by decide, fun s hinp => ?_⟩
  rw [exec_pack_framed hinp]
  simp only [Memory.readBytes, Nat.zero_add]
  rfl

/-- Settles O46: IN is stored from address 0 on, behind the check of its length. -/
theorem unpackCopiesIn : Obligations.UnpackCopiesIn := by
  refine ⟨by decide, fun s hinp => ⟨_, exec_unpack_framed hinp, rfl, fun a => ?_⟩,
    fun s hinp => badFramingIsIllegal .unpack s hinp⟩
  simp only [State.respond_data, Memory.read_writeBytes, hinp, Nat.zero_le, true_and, Nat.zero_add, Nat.sub_zero]
  rfl

/-- DISPLAY answers with the rendering of the bits below CURSOR (R86). -/
theorem exec_display_framed {s : State} (hinp : s.inp = []) :
    exec .display s = .next (s.respond .ok { out := (List.range s.cur).flatMap s.displayBit }) := by
  rw [exec, execDisplay, runCommand_framed _ _ _ (State.inLenIs_zero hinp), finish_done]

/-- Settles O47: OUT is the rendering, whose length, characters and separators are known. -/
theorem displayRenders : Obligations.DisplayRenders :=
  ⟨by decide, fun s hinp => ⟨_, exec_display_framed hinp, rfl, displayBits_spec s s.cur⟩⟩

/-! ### The leading run (R87) -/

/-- RUN_LENGTH answers with the number of leading bits below CURSOR that equal the target (R87). -/
theorem exec_runLength_framed {s : State} (target : Bool) (hinp : s.inp = []) :
    exec (.runLength target) s = .next (s.respond .ok
      { res := resNat ((List.range s.cur).takeWhile fun i => s.bitRead i == target).length }) := by
  rw [exec, execRunLength, runCommand_framed _ _ _ (State.inLenIs_zero hinp), finish_done]

/-- Settles O48: the run ends at CURSOR or at the first bit that differs. -/
theorem runLengthCounts : Obligations.RunLengthCounts := by
  refine ⟨⟨by decide, by decide, rfl, rfl⟩, fun s target r hinp hle hrun hend => ?_⟩
  have hlength : ((List.range s.cur).takeWhile fun i => s.bitRead i == target).length = r :=
    length_takeWhile_range hle (fun i hi => beq_iff_eq.2 (hrun i hi)) (hend.imp_right beq_eq_false_iff_ne.2)
  rw [exec_runLength_framed target hinp, hlength]
  rfl

/-! ### The shift (R88) -/

section
variable {s : State} (hinp : s.inp = [])
include hinp

/-- SHIFT_LEFT by 0 changes nothing but the response, whatever CURSOR is (R88). -/
theorem exec_shiftLeft_zero (h : s.opa = 0) : exec .shiftLeft s = .next (s.respond .ok {}) := by
  rw [exec, execShiftLeft, runCommand_framed _ _ _ (State.inLenIs_zero hinp), if_pos h, finish_done]

/-- SHIFT_LEFT from CURSOR on does what ZERO does (R88). -/
theorem exec_shiftLeft_ge (hpos : 0 < s.opa) (h : s.cur ≤ s.opa) :
    exec .shiftLeft s = .next (s.clear.respond .ok {}) := by
  rw [exec, execShiftLeft, runCommand_framed _ _ _ (State.inLenIs_zero hinp), if_neg hpos.ne', if_pos h, finish_done]

/-- SHIFT_LEFT below CURSOR writes the moved bits over the whole storage and lowers CURSOR (R88). -/
theorem exec_shiftLeft_lt (hpos : 0 < s.opa) (h : s.opa < s.cur) :
    exec .shiftLeft s = .next
      (((s.writeBits 0 (s.shiftedBits s.opa)).setCur (s.cur - s.opa)).respond .ok {}) := by
  rw [exec, execShiftLeft, runCommand_framed _ _ _ (State.inLenIs_zero hinp), if_neg hpos.ne', if_neg h.not_ge,
    finish_done]

end

@[simp] theorem State.length_shiftedBits (s : State) (n : Nat) : (s.shiftedBits n).length = s.nbits := by
  simp [State.shiftedBits]

/-- The moved bits, written from index 0 on, fill the storage (R88). -/
theorem bitsWritten_shiftedBits (s : State) (n : Nat) :
    BitsWritten s (s.writeBits 0 (s.shiftedBits n)) 0 s.nbits
      fun j => if j + n < s.nbits then s.bitRead (j + n) else false :=
  bitsWritten_of_writeBits rfl (State.length_shiftedBits s n) fun k hk => by
    simp [State.shiftedBits, List.getD_eq_getElem?_getD, hk]

/-- Settles O49: the count 0 first, then the counts from CURSOR on, then those below it. -/
theorem shiftLeftMoves : Obligations.ShiftLeftMoves := by
  refine ⟨by decide, fun s hinp h => exec_shiftLeft_zero hinp h, ?clears, ?moves⟩
  case clears => exact fun s hinp hpos h => ⟨_, exec_shiftLeft_ge hinp hpos h, rfl, State.read_clear s⟩
  case moves =>
    intro s hinp hpos h
    refine ⟨_, exec_shiftLeft_lt hinp hpos h, ?_, (bitsWritten_shiftedBits s s.opa).congr rfl⟩
    rw [State.writeBits_eq]
    rfl

/-! ### Two shifts (R88) -/

/-- No bit is set from `NBITS` on. -/
theorem State.StorageInside.bitRead_of_nbits_le {s : State} (hs : s.StorageInside) {i : Nat} (h : s.nbits ≤ i) :
    s.bitRead i = false := by
  have hbyte : s.cap ≤ byteOf i := by unfold State.nbits at h; unfold byteOf; omega
  rw [State.bitRead, Memory.read_above hs.2 hbyte]
  exact BitVec.getLsbD_zero

/-- Canonical storages with the same bits are one list. -/
theorem State.data_ext {s t : State} (hs : Memory.wf s.data) (ht : Memory.wf t.data)
    (h : ∀ i, s.bitRead i = t.bitRead i) : s.data = t.data :=
  Memory.wf_ext hs ht fun _ => State.read_congr fun i _ => h i

/-- The moved bits hold at every index `i` the bit that stood at `i + n`, because none is set from `NBITS` on (R88). -/
theorem State.StorageInside.bitRead_shiftedBits {s : State} (hs : s.StorageInside) (n i : Nat) :
    (s.writeBits 0 (s.shiftedBits n)).bitRead i = s.bitRead (i + n) := by
  obtain ⟨hbits, -⟩ := bitsWritten_shiftedBits s n
  simp only [hbits]
  by_cases hfrom : i + n < s.nbits
  · rw [if_pos ⟨Nat.zero_le _, by omega⟩, if_pos hfrom]
  · rw [if_neg hfrom, hs.bitRead_of_nbits_le (Nat.not_lt.1 hfrom), ite_eq_left_iff]
    exact fun houtside => hs.bitRead_of_nbits_le (by omega)

/-- SHIFT_LEFT by a count below CURSOR, 0 included: bit `i` is the bit that stood at `i + OPA`, CURSOR is lowered by OPA,
and the storage stays canonical (R88). -/
theorem exec_shiftLeft_moves {s : State} (hs : s.StorageInside) (hinp : s.inp = []) (h : s.opa < s.cur) :
    ∃ d, exec .shiftLeft s
        = .next (State.respond { s with data := d, cursor := BitVec.ofNat 32 (s.cur - s.opa) } .ok {}) ∧
      State.StorageInside { s with data := d } ∧ ∀ i, State.bitRead { s with data := d } i = s.bitRead (i + s.opa) := by
  rcases Nat.eq_zero_or_pos s.opa with hzero | hpos
  · refine ⟨s.data, ?_, hs, fun i => by rw [hzero]; rfl⟩
    rw [exec_shiftLeft_zero hinp hzero, hzero, Nat.sub_zero, State.cur, BitVec.ofNat_toNat, BitVec.setWidth_eq]
  · refine ⟨(s.writeBits 0 (s.shiftedBits s.opa)).data, ?_, ⟨State.writeBits_wf hs.1 0 _, ?_⟩,
      hs.bitRead_shiftedBits s.opa⟩
    · rw [exec_shiftLeft_lt hinp hpos h, State.writeBits_eq]
      rfl
    · exact State.writeBits_bound hs.2 _ (by simp)

/-- Settles O53: bit `i` after both shifts is bit `i + b + a` before them, and the bits determine the storage. -/
theorem shiftLeftComposes : Obligations.ShiftLeftComposes := by
  rintro s a b c ⟨-, hwf, hbound, -⟩ ha hb hc hsum hlt
  have hs (p : Packet) : State.StorageInside { s with packet := p } := ⟨hwf, hbound⟩
  have hcur : (s.setCur (s.cur - a.opa.toNat)).cur = s.cur - a.opa.toNat :=
    State.setCur_cur s ((Nat.sub_le _ _).trans_lt s.cursor.isLt)
  obtain ⟨d, ht, hdInside, hdBits⟩ := exec_shiftLeft_moves (hs a) ha (show a.opa.toNat < s.cur by omega)
  obtain ⟨e, hu, heInside, heBits⟩ := exec_shiftLeft_moves
    (s := { State.respond { s with packet := a, data := d, cursor := BitVec.ofNat 32 (s.cur - a.opa.toNat) } .ok {} with
      packet := b }) hdInside hb (show b.opa.toNat < (s.setCur (s.cur - a.opa.toNat)).cur by omega)
  obtain ⟨f, hv, hfInside, hfBits⟩ := exec_shiftLeft_moves (hs c) hc hlt
  have hdata : f = e := State.data_ext hfInside.1 heInside.1 fun i => by
    calc State.bitRead { s with data := f } i
      _ = s.bitRead (i + c.opa.toNat) := hfBits i
      _ = s.bitRead (i + b.opa.toNat + a.opa.toNat) := by rw [hsum, Nat.add_comm a.opa.toNat, Nat.add_assoc]
      _ = State.bitRead { s with data := d } (i + b.opa.toNat) := (hdBits _).symm
      _ = State.bitRead { s with data := e } i := (heBits i).symm
  have hcursor : s.cur - c.opa.toNat = (s.setCur (s.cur - a.opa.toNat)).cur - b.opa.toNat := by omega
  refine ⟨_, _, ht, hu, ?_⟩
  rw [hv, hdata, show State.cur { s with packet := c } - State.opa { s with packet := c } = _ from hcursor]
  rfl

end Sys2Proof.Machine
end

section
/-! PROOFS. 60_exceptions.md: every step ends in a next state (R90, R99), an illegal packet changes nothing but the
response (R94), the response of a failed command (R98), and the status of every command (R92, R95). The table of R92 is
proved column by column, with one lemma for each column and one for the commands that no column holds of. -/

namespace Sys2Proof.Machine

/-! ### Steps with and without a command (R90, R94, R107) -/

/-- Settles O6: the step's case for a host with no packet left. -/
theorem idleBlockKeepsItsState : Obligations.IdleBlockKeepsItsState :=
  fun _ h => step_idle h

/-- Every command ends in a next state: its body or its framing check answers (R90). -/
theorem exec_next (i : Instr) (s : State) : ∃ t, exec i s = .next t := by
  obtain ⟨_, _, _, hshape, -⟩ := exec_shape i s
  exact ⟨_, hshape⟩

/-- Settles O9: in each of its three cases a step answers a next state. -/
theorem noPacketStopsTheBlock : Obligations.NoPacketStopsTheBlock := by
  intro s
  cases hscript : s.script with
  | nil => exact ⟨_, step_idle hscript⟩
  | cons p rest =>
    cases hd : decode p.cmd with
    | error e => exact ⟨_, step_undecodable hscript hd⟩
    | ok i => rw [step_decoded hscript hd]; exact exec_next i _

/-- Settles O7: the step answers an undecodable word itself, and the framing check of the command a bad IN length. -/
theorem illegalPacketChangesNothing : Obligations.IllegalPacketChangesNothing :=
  ⟨fun _ _ _ _ hscript hd => step_undecodable hscript hd,
    fun _ _ _ i hscript hd hbad => (step_decoded hscript hd).trans (badFramingIsIllegal i _ hbad)⟩

/-! ### The response of a failed command (R98) -/

/-- Settles O17: a failed framing check answers with nothing at all, and a raising body with its RES2 alone. -/
theorem failureResponse : Obligations.FailureResponse := by
  intro i s t h hfail
  obtain ⟨framing, r2, body, hshape, -, rfl, hraises⟩ := exec_shape i s
  rw [hshape] at h
  cases framing with
  | false =>
    rw [runCommand_illegal _ _ _ rfl] at h
    cases h
    exact ⟨rfl, rfl, (if_neg fun hpair => hpair.2 rfl).symm⟩
  | true =>
    rw [runCommand_framed _ _ _ rfl] at h
    cases h
    cases hbody : body s with
    | done r u => rw [hbody] at hfail; exact absurd rfl hfail
    | raised st u =>
      rw [hbody] at hraises
      have hlegal : st.code ≠ 5#8 := Status.code_ne_illegal hraises
      exact ⟨rfl, rfl, by simp [hlegal]⟩

/-! ### How a command ends -/

/-- Whatever state the command ends in, its STATUS is `st`. -/
def EndsWith (o : Host.Outcome State Fault Refusal) (st : Status) : Prop :=
  ∀ t, o = .next t → t.status = st.code

/-- A command that ends in a response has the response's status. -/
theorem endsWith_of_respond {o : Host.Outcome State Fault Refusal} {u : State} {st : Status} {r : Response}
    (h : o = .next (u.respond st r)) : EndsWith o st := by
  intro t ht
  rw [h] at ht
  cases ht
  rfl

section
variable {o : Host.Outcome State Fault Refusal} {s : State} {start : Nat} {vs : List BitVal} {r2 : BitVec 32}
  {r : Response} (ho : WritesFrom o s start vs r2 r) (hn : s.nbits < 2 ^ 32)
include ho hn

/-- A writer whose bits fit ends with OK. -/
theorem WritesFrom.endsWith_ok (h : start + vs.length ≤ s.nbits) : EndsWith o .ok := by
  obtain ⟨t, ht, hstate, -⟩ := ho.fits (bit := fun i => phys (vs.getD (i - start) .zero) i) hn rfl
    (fun k _ => by rw [Nat.add_sub_cancel_left]) h
  exact endsWith_of_respond (hstate ▸ ht)

/-- A writer whose bits do not fit ends with OUT_OF_RANGE. -/
theorem WritesFrom.endsWith_outOfRange (hstart : start ≤ s.nbits) (h : s.nbits < start + vs.length) :
    EndsWith o .outOfRange := by
  obtain ⟨t, ht, hstate, -⟩ := ho.overflows (bit := fun i => phys (vs.getD (i - start) .zero) i) hn rfl
    (fun k _ => by rw [Nat.add_sub_cancel_left]) hstart h
  exact endsWith_of_respond (hstate ▸ ht)

end

/-! ### What the scans and the digits come to -/

/-- FIND_FIRST_BIT with a plain bit of its value from OPA on ends with OK (R66). -/
theorem exec_findFirstBit_found {s : State} {v : BitVal} (hinp : s.inp = [])
    (h : ¬ NotFoundWhen s (.findFirstBit v)) : EndsWith (exec (.findFirstBit v) s) .ok := by
  have hex : ∃ i, s.opa ≤ i ∧ i < s.nbits ∧ plainVal (s.bitRead i) = v := by
    simpa [NotFoundWhen] using h
  obtain ⟨hle, hlt, hbit⟩ := Nat.find_spec hex
  exact endsWith_of_respond (exec_findFirstBit_first hinp hle hlt hbit fun j h1 h2 h3 =>
    Nat.find_min hex h2 ⟨h1, h2.trans hlt, h3⟩)

/-- Among `k` or more ones below `n` there is one with `k - 1` ones below it. -/
theorem exists_nth_one {s : State} {k n : Nat} (hpos : 0 < k) (h : k ≤ onesBelow s n) :
    ∃ i < n, s.bitRead i = true ∧ onesBelow s i + 1 = k := by
  induction n with
  | zero => exact absurd h (Nat.not_le.2 hpos)
  | succ n ih =>
    rcases Nat.lt_or_ge (onesBelow s n) k with hlast | hbelow
    · rw [onesBelow_succ] at h
      cases hbit : s.bitRead n with
      | false => rw [hbit] at h; exact absurd h (Nat.not_le.2 hlast)
      | true => rw [hbit] at h; exact ⟨n, n.lt_succ_self, hbit, le_antisymm hlast h⟩
    · obtain ⟨i, hi, hone⟩ := ih hbelow
      exact ⟨i, hi.trans n.lt_succ_self, hone⟩

/-- NTH_SET_BIT with enough ones in the capacity ends with OK (R67). -/
theorem exec_nthSetBit_found {s : State} (hinp : s.inp = []) (h : ¬ NotFoundWhen s .nthSetBit) :
    EndsWith (exec .nthSetBit s) .ok := by
  obtain ⟨hmany, hpos⟩ := not_or.1 h
  obtain ⟨i, hlt, hbit, hcount⟩ := exists_nth_one (Nat.pos_of_ne_zero hpos) (Nat.not_lt.1 hmany)
  exact endsWith_of_respond (exec_nthSetBit_nth hinp hlt hbit hcount)

section
variable {s : State} (hn : s.nbits < 2 ^ 32) (hinp : s.inp.length < 2 ^ 32)
include hn hinp

/-- UNHEX of good digits alone ends with OK (R81). -/
theorem exec_unhex_good (h : ¬ MalformedInputWhen s .unhex) : EndsWith (exec .unhex s) .ok := by
  obtain ⟨d, hd, -⟩ := exec_unhex_digits hn hinp le_rfl fun j hj hbad => h ⟨j, hj, hbad⟩
  rw [Nat.sub_self] at hd
  exact endsWith_of_respond hd

/-- UNHEX with a bad character ends with MALFORMED_INPUT, at the first of them (R81). -/
theorem exec_unhex_malformed (h : MalformedInputWhen s .unhex) : EndsWith (exec .unhex s) .malformedInput := by
  have hex : ∃ k, k < 2 * s.cap ∧ hexDigit (charAt s.inp k) = none := h
  obtain ⟨hk, hbad⟩ := Nat.find_spec hex
  obtain ⟨d, hd, -⟩ := exec_unhex_digits hn hinp hk.le fun j hj hnone =>
    Nat.find_min hex hj ⟨hj.trans hk, hnone⟩
  rw [show 2 * s.cap - Nat.find hex = 2 * s.cap - Nat.find hex - 1 + 1 by omega, unhexFrom_bad hbad] at hd
  exact endsWith_of_respond hd

end

/-- SHIFT_LEFT ends with OK, whatever its count (R88). -/
theorem exec_shiftLeft_ok {s : State} (hinp : s.inp = []) : EndsWith (exec .shiftLeft s) .ok := by
  rcases Nat.eq_zero_or_pos s.opa with hzero | hpos
  · exact endsWith_of_respond (exec_shiftLeft_zero hinp hzero)
  · rcases Nat.lt_or_ge s.opa s.cur with hlt | hge
    · exact endsWith_of_respond (exec_shiftLeft_lt hinp hpos hlt)
    · exact endsWith_of_respond (exec_shiftLeft_ge hinp hpos hge)

/-! ### The columns of the status table (R92) -/

section
variable {i : Instr} {s : State}

/-- The column INVALID_ARGUMENT. -/
theorem exec_invalidArgument (hf : FramedBy s i) (h : InvalidArgumentWhen s i) :
    EndsWith (exec i s) .invalidArgument := by
  cases i with
  | setUint nb => exact endsWith_of_respond (exec_setUint_width hf h)
  | getUint nb => exact endsWith_of_respond (exec_getUint_width hf h)
  | getInt16Msb nb => exact endsWith_of_respond (exec_getInt16Msb_unguarded hf h)
  | readField nb => exact endsWith_of_respond (exec_readField_width hf h)
  | writeField nb => exact endsWith_of_respond (exec_writeField_width hf h)
  | getBit | getBitHl | setBit | findFirstBit | nthSetBit | setNextBit | getNextBitHl | setBits | fill | sparePadding
  | getBytes | setBytes | unhex | zero | pack | unpack | display | runLength | shiftLeft => exact h.elim

/-- The column NOT_FOUND. -/
theorem exec_notFound (hf : FramedBy s i) (h : NotFoundWhen s i) : EndsWith (exec i s) .notFound := by
  cases i with
  | findFirstBit v => exact endsWith_of_respond (exec_findFirstBit_notFound hf h)
  | nthSetBit => exact endsWith_of_respond (exec_nthSetBit_notFound hf h)
  | getBit | getBitHl | setBit | setNextBit | getNextBitHl | setBits | setUint | getUint | getInt16Msb | fill
  | sparePadding | getBytes | setBytes | readField | writeField | unhex | zero | pack | unpack | display | runLength
  | shiftLeft => exact h.elim

/-- The column MALFORMED_INPUT. -/
theorem exec_malformedInput (hn : s.nbits < 2 ^ 32) (hf : FramedBy s i) (h : MalformedInputWhen s i) :
    EndsWith (exec i s) .malformedInput := by
  cases i with
  | unhex => exact exec_unhex_malformed hn hf h
  | getBit | getBitHl | setBit | findFirstBit | nthSetBit | setNextBit | getNextBitHl | setBits | setUint | getUint
  | getInt16Msb | fill | sparePadding | getBytes | setBytes | readField | writeField | zero | pack | unpack | display
  | runLength | shiftLeft => exact h.elim

/-- The column OUT_OF_RANGE, after INVALID_ARGUMENT (R95). -/
theorem exec_outOfRange (hs : s.CursorInside) (hf : FramedBy s i) (hvalid : ¬ InvalidArgumentWhen s i)
    (h : OutOfRangeWhen s i) : EndsWith (exec i s) .outOfRange := by
  obtain ⟨hcap, hcur⟩ := hs
  have hn := State.nbits_lt hcap
  cases i with
  | getBit => exact endsWith_of_respond (exec_getBit_ge hf h)
  | getBitHl => exact endsWith_of_respond (exec_getBitHl_ge hf h)
  | setBit v => exact endsWith_of_respond (exec_setBit_ge hf v h)
  | setNextBit v => exact endsWith_of_respond (exec_setNextBit_ge hf v (Eq.ge h))
  | getNextBitHl => exact endsWith_of_respond (exec_getNextBitHl_ge hf (Eq.ge h))
  | setBits =>
    have hlen : s.inp.length = s.opa := hf
    exact (exec_setBits_writes hf).endsWith_outOfRange hn hcur (by rwa [List.length_map, hlen])
  | setUint nb =>
    exact (exec_setUint_writes hf (Nat.not_lt.1 hvalid)).endsWith_outOfRange hn hcur (by rwa [length_valueBits])
  | getUint nb => exact endsWith_of_respond (exec_getUint_overflows hf hn (Nat.not_lt.1 hvalid) hcur h)
  | fill v => exact (exec_fill_writes hf v).endsWith_outOfRange hn hcur (by rwa [List.length_replicate])
  | sparePadding =>
    obtain ⟨hout, hle⟩ := h
    exact (exec_sparePadding_writes hf hle).endsWith_outOfRange hn hcur (by rw [List.length_replicate]; omega)
  | getBytes => exact endsWith_of_respond (exec_getBytes_outOfRange hf h)
  | setBytes => exact endsWith_of_respond (exec_setBytes_outOfRange hf h)
  | readField nb =>
    rcases Nat.lt_or_ge s.nbits s.opa with hbeyond | hstart
    · exact endsWith_of_respond (exec_readField_beyond hf (Nat.not_lt.1 hvalid) hbeyond)
    · exact endsWith_of_respond
        (exec_readField_overflows hf hn (Nat.not_lt.1 hvalid) hstart (h.resolve_left hstart.not_gt))
  | writeField nb =>
    rcases Nat.lt_or_ge s.nbits s.opa with hbeyond | hstart
    · exact endsWith_of_respond (exec_writeField_beyond hf (Nat.not_lt.1 hvalid) hbeyond)
    · exact (exec_writeField_writes hf (Nat.not_lt.1 hvalid) hstart).endsWith_outOfRange hn hstart
        (by rw [length_valueBits]; exact h.resolve_left hstart.not_gt)
  | findFirstBit | nthSetBit | getInt16Msb | unhex | zero | pack | unpack | display | runLength | shiftLeft =>
    exact h.elim

/-- A framed command of no column ends with OK. -/
theorem exec_ok (hs : s.CursorInside) (hf : FramedBy s i) (hvalid : ¬ InvalidArgumentWhen s i)
    (hrange : ¬ OutOfRangeWhen s i) (hfound : ¬ NotFoundWhen s i) (hformed : ¬ MalformedInputWhen s i) :
    EndsWith (exec i s) .ok := by
  obtain ⟨hcap, hcur⟩ := hs
  have hn := State.nbits_lt hcap
  cases i with
  | getBit => exact endsWith_of_respond (exec_getBit_lt hf (Nat.not_le.1 hrange))
  | getBitHl => exact endsWith_of_respond (exec_getBitHl_lt hf (Nat.not_le.1 hrange))
  | setBit v => exact endsWith_of_respond (exec_setBit_lt v hf (Nat.not_le.1 hrange))
  | findFirstBit v => exact exec_findFirstBit_found hf hfound
  | nthSetBit => exact exec_nthSetBit_found hf hfound
  | setNextBit v => exact endsWith_of_respond (exec_setNextBit_lt hf v (lt_of_le_of_ne hcur hrange))
  | getNextBitHl => exact endsWith_of_respond (exec_getNextBitHl_lt hf (lt_of_le_of_ne hcur hrange))
  | setBits =>
    have hlen : s.inp.length = s.opa := hf
    exact (exec_setBits_writes hf).endsWith_ok hn (by rw [List.length_map, hlen]; exact Nat.not_lt.1 hrange)
  | setUint nb =>
    exact (exec_setUint_writes hf (Nat.not_lt.1 hvalid)).endsWith_ok hn
      (by rw [length_valueBits]; exact Nat.not_lt.1 hrange)
  | getUint nb =>
    exact endsWith_of_respond (exec_getUint_fits hf hn (Nat.not_lt.1 hvalid) (Nat.not_lt.1 hrange))
  | getInt16Msb nb =>
    obtain ⟨hwidth, hguard⟩ := not_or.1 hvalid
    exact endsWith_of_respond (exec_getInt16Msb_guarded hf (Nat.not_lt.1 hwidth) (Nat.not_lt.1 hguard))
  | fill v =>
    exact (exec_fill_writes hf v).endsWith_ok hn (by rw [List.length_replicate]; exact Nat.not_lt.1 hrange)
  | sparePadding =>
    rcases Nat.lt_or_ge s.opa s.cur with hbelow | hle
    · exact endsWith_of_respond (exec_sparePadding_noop hf hbelow)
    · have hinside : s.opa < s.nbits := Nat.not_le.1 fun hout => hrange ⟨hout, hle⟩
      exact (exec_sparePadding_writes hf hle).endsWith_ok hn (by rw [List.length_replicate]; omega)
  | getBytes => exact endsWith_of_respond (exec_getBytes_fits hf (Nat.not_lt.1 hrange))
  | setBytes => exact endsWith_of_respond (exec_setBytes_fits hf (Nat.not_lt.1 hrange))
  | readField nb =>
    obtain ⟨-, hfits⟩ := not_or.1 hrange
    exact endsWith_of_respond (exec_readField_fits hf hn (Nat.not_lt.1 hvalid) (Nat.not_lt.1 hfits))
  | writeField nb =>
    obtain ⟨hstart, hfits⟩ := not_or.1 hrange
    exact (exec_writeField_writes hf (Nat.not_lt.1 hvalid) (Nat.not_lt.1 hstart)).endsWith_ok hn
      (by rw [length_valueBits]; exact Nat.not_lt.1 hfits)
  | unhex => exact exec_unhex_good hn hf hformed
  | zero => exact endsWith_of_respond (exec_zero_framed hf)
  | pack => exact endsWith_of_respond (exec_pack_framed hf)
  | unpack => exact endsWith_of_respond (exec_unpack_framed hf)
  | display => exact endsWith_of_respond (exec_display_framed hf)
  | runLength target => exact endsWith_of_respond (exec_runLength_framed target hf)
  | shiftLeft => exact exec_shiftLeft_ok hf

end

/-- Settles O19: the framing check first, then the columns of the table, and OK outside all of them. -/
theorem statusTable : Obligations.StatusTable := by
  rintro i s ⟨hcap, -, -, hcur, -⟩
  have hs : s.CursorInside := ⟨hcap, hcur⟩
  obtain ⟨t, ht⟩ := exec_next i s
  refine ⟨t, ht, ?illegal, ?invalidArgument, ?outOfRange, ?notFound, ?malformedInput, ?ok⟩
  case illegal =>
    intro hbad
    have hresponse : exec i s = .next (s.respond .illegalCommand {}) := badFramingIsIllegal i s hbad
    exact endsWith_of_respond hresponse t ht
  case invalidArgument => exact fun hf h => exec_invalidArgument hf h t ht
  case outOfRange => exact fun hf hvalid h => exec_outOfRange hs hf hvalid h t ht
  case notFound => exact fun hf h => exec_notFound hf h t ht
  case malformedInput => exact fun hf h => exec_malformedInput (State.nbits_lt hcap) hf h t ht
  case ok => exact fun hf hvalid hrange hfound hformed => exec_ok hs hf hvalid hrange hfound hformed t ht

end Sys2Proof.Machine
end

section
/-! PROOFS. 70_reset_and_hazards.md: ZERO against allocation (R109). -/

namespace Sys2Proof.Machine

/-- Settles O15: the invariant makes the storage canonical and keeps it inside the capacity, and there ZERO answers the
allocated instance. -/
theorem zeroEqualsAllocation : Obligations.ZeroEqualsAllocation := by
  rintro s ⟨-, hcanonical, hinside, -⟩ hinp
  exact exec_zero_eq_allocate hinp ⟨hcanonical, hinside⟩

end Sys2Proof.Machine
end
